-- ==== Sys2Proof/Word.lean ====
section
/-! DEFINITION. The one word of the machine: the byte (spec/00_scope.md R7: every register and memory value is in `u8`). -/

namespace Sys2Proof

/-- `u8` of R7: an unsigned 8-bit value. Registers, memory cells, opcode and operand bytes are all of this type. -/
abbrev Byte := BitVec 8

/-- The number of a register slot, 0..7 (10_state.md R20: "register indices are always in [0,7]"). -/
abbrev RegIdx := Fin 8

end Sys2Proof
end

