-- ==== Sys2Proof/Config.lean ====
section
/-! DEFINITION. The implementation parameters of spec/00_scope.md R6. The spec fixes every one of them, so each has a value;
the two that R6 lets a model take as arguments are the defaults of `Machine.State.resetOf`. -/

namespace Sys2Proof

/-- `SP_INDEX` (R6, 10_state.md R21): slot 7 is the stack pointer. -/
abbrev Config.spIndex : RegIdx := 7

/-- `MEMSIZE` (R6, 10_state.md R28): the number of memory cells. -/
abbrev Config.memSize : Nat := 256

/-- `SP_RESET` (R6, 10_state.md R24): the reset value of R7. The spec's own decision D2; log entry 12 (UNVERIFIED, unsafe). -/
abbrev Config.spReset : Byte := 0xF4#8

/-- `GPR_RESET` (R6, 10_state.md R24): the reset value of R0..R6. The spec's own decision D3; log entry 12 (UNVERIFIED, unsafe). -/
abbrev Config.gprReset : Byte := 0x00#8

/-- `LOAD_BASE` (R6): the address at which the image is loaded. -/
abbrev Config.loadBase : Nat := 0

end Sys2Proof
end

