-- ==== Sys2Proof/Machine/State.lean ====
section
/-! DEFINITION. The state of the CORE: every field of the state summary of spec/10_state.md R35, as plain data. -/

namespace Sys2Proof.Machine

/-- The sub-kinds of `OutOfBounds` (60_exceptions.md R181), in the order of their sub-codes 0..6. -/
inductive BoundsKind where
  /-- Opcode fetch with pc above 255 (40_engine.md R84). -/
  | fetch
  /-- Operand fetch above address 255 (40_engine.md R85). -/
  | operand
  /-- A register operand byte above 7 (40_engine.md R86). -/
  | register
  /-- A push with SP = 0 (43_stack.md R140). -/
  | spDecrement
  /-- A pop with SP = 255 (43_stack.md R141). -/
  | spIncrement
  /-- CALL whose return address does not fit a byte (44_call_return.md R160). -/
  | returnAddress
  /-- A reset image longer than 256 bytes (70_reset_and_hazards.md R211); raised by reset, never by a step. -/
  | load
  deriving DecidableEq, Repr

/-- The error kinds of 60_exceptions.md R180, each with the detail it records. The last three never stand in a CORE fault
record (42_alu.md R123, 60_exceptions.md R182). Log entry 8 (DESIGN CHOICE, safe). -/
inductive Error where
  /-- The fetched byte is no opcode; the detail is that byte. -/
  | unknownOpcode (op : Byte)
  /-- An address or register index outside its range; the detail is the sub-kind and the out-of-range value (-1 is one). -/
  | outOfBounds (sub : BoundsKind) (value : Int)
  /-- The ALU was given a name it does not know; the detail is the opcode byte. Unreachable (R123). -/
  | unsupportedOperation (op : Byte)
  /-- The loader collaborator's malformed line; never in a CORE record (R182). -/
  | malformedProgramLine
  /-- The loader collaborator's missing source; never in a CORE record (R182). -/
  | programNotFound
  deriving DecidableEq, Repr

/-- The fault record (10_state.md R30): the error with its detail, and the pc of the instruction that raised it. -/
structure FaultRecord where
  error : Error
  pc : Nat
  deriving DecidableEq, Repr

/-- The run status (10_state.md R29). -/
inductive Status where
  | halted
  | running
  | faulted (e : FaultRecord)
  deriving DecidableEq, Repr

/-- Memory as a list of address and byte pairs. Its canonical form is `Memory.wf` (Machine/Memory.lean): addresses strictly
rising and below 256, no entry equal to what an unlisted address reads as. Log entry 6 (DESIGN CHOICE, safe). -/
abbrev Memory := List Host.Cell

/-- The architectural state (10_state.md R35). The pc is an integer 0..256 (R25); the bound is an invariant, not a type:
log entry 5 (DESIGN CHOICE, safe). -/
structure State where
  /-- The register file, slot 7 being SP (R20, R21). -/
  x : Vector Byte 8
  /-- The program counter (R25). -/
  pc : Nat
  /-- The 256 cells (R28). -/
  mem : Memory
  /-- The run status, with the fault record in it (R29, R30). -/
  status : Status
  /-- The values sent on the out port since reset, oldest first (R31). -/
  out : List Byte
  deriving DecidableEq, Repr

/-- Why no next state exists. Both are raised by `step` alone, and only when the status is not `Running`, where the spec
defines no step (40_engine.md R82). Safe: the hardware makes no step there either. Log entry 2 (DEDUCED, safe). -/
inductive Fault where
  /-- The status is `Halted`: the CORE waits for `start` or `reset` (60_exceptions.md R199). Safe. -/
  | halted
  /-- The status is `Faulted(e)`, terminal until `reset` (60_exceptions.md R191). Safe. -/
  | faulted (e : FaultRecord)
  deriving DecidableEq, Repr

/-- Why an instruction has no meaning. No meaning of this model refuses. -/
inductive Refusal where
  /-- Raised by an arm of exec whose instruction has no meaning yet; no arm is such. Safe. -/
  | notModelled (mnemonic : String)
  deriving DecidableEq, Repr

/-- What a step, or the execution of one instruction, answers. -/
abbrev StepResult := Host.Outcome State Fault Refusal

/-- The reset state for given `SP_RESET` and `GPR_RESET`, before any image (70_reset_and_hazards.md R210; parameters as
00_scope.md R6 allows). -/
def State.resetOf (spReset gprReset : Byte) : State where
  x := (Vector.replicate 8 gprReset).set 7 spReset
  pc := 0
  mem := []
  status := .halted
  out := []

/-- The machine right after reset with the empty image (70_reset_and_hazards.md R210, 10_state.md R35). -/
def State.reset : State := State.resetOf Config.spReset Config.gprReset

end Sys2Proof.Machine
end

