-- ==== Sys2Proof/Machine/Operands.lean ====
section
/-! DEFINITION. The one check an operand goes through: `regidx` (spec/40_engine.md R86). The immediate of LDI is the whole byte,
not extended, scaled or shifted, and goes through no check (30_encoding.md R62). -/

namespace Sys2Proof.Machine

/-- `regidx(b)` (R86): the whole byte is compared, with no masking; a byte above 7 raises `OutOfBounds(Register, b)`. -/
def regIdx (b : Byte) : Except Error RegIdx :=
  if h : b.toNat < 8 then .ok ⟨b.toNat, h⟩ else .error (.outOfBounds .register b.toNat)

end Sys2Proof.Machine
end

