-- ==== Sys2Proof/Machine/Ops.lean ====
section
/-! DEFINITION. The primitives of spec/00_scope.md R8 over the state, fault entry (60_exceptions.md R190) and the stack
primitives (43_stack.md R140, R141). There is no return from a fault (60_exceptions.md R192), so none stands beside it. -/

namespace Sys2Proof.Machine

/-- `x[i]` (R8). -/
def State.reg (s : State) (i : RegIdx) : Byte := s.x[i]

/-- `x[i] <- v` (R8). No slot is hardwired (10_state.md R22). -/
def State.setReg (s : State) (i : RegIdx) (v : Byte) : State := { s with x := s.x.set i v }

/-- `SP`, another name for `x[7]` (R8). -/
def State.sp (s : State) : Byte := s.reg Config.spIndex

/-- `pc <- target` (R8). -/
def State.setPc (s : State) (target : Nat) : State := { s with pc := target }

/-- The sequential advance, exact and never wrapping (10_state.md R27). -/
def State.advance (s : State) (width : Nat) : State := s.setPc (s.pc + width)

/-- `status <- S` (R8). -/
def State.setStatus (s : State) (status : Status) : State := { s with status := status }

/-- `Emit(v)` (R8, R9): one value on the out port, after those sent before it. -/
def State.emit (s : State) (v : Byte) : State := { s with out := s.out ++ [v] }

/-- `MemRead(addr, 1)` (20_memory.md R40); every caller has checked the address. -/
def State.memRead (s : State) (a : Nat) : Byte := s.mem.read a

/-- `MemWrite(addr, 1, v)` (20_memory.md R41); every caller has checked the address. -/
def State.memWrite (s : State) (a : Nat) (v : Byte) : State := { s with mem := s.mem.write a v }

/-- Fault entry (60_exceptions.md R190): the status becomes `Faulted` with the error and the instruction's pc, and nothing else
changes. `s` is the state before the instruction. Log entry 1: the raise is a next state. -/
def State.raise (s : State) (e : Error) : State := s.setStatus (.faulted ⟨e, s.pc⟩)

/-- The end of an instruction that started in `s`: its own next state, or fault entry from `s` itself, so that a raise leaves no
partial result (40_engine.md R87, 60_exceptions.md R190). -/
def finish (s : State) : Except Error State → StepResult
  | .ok t => .next t
  | .error e => .next (s.raise e)

/-- The address a push stores to: the new SP, one below the old (20_memory.md R42). -/
def State.pushAddress (s : State) : Nat := s.sp.toNat - 1

/-- `pushValue(v)` (43_stack.md R140). -/
def pushValue (v : Byte) (s : State) : Except Error State :=
  if s.sp = 0#8 then .error (.outOfBounds .spDecrement (-1))
  else .ok ((s.setReg Config.spIndex (s.sp - 1#8)).memWrite s.pushAddress v)

/-- `popValue()` (43_stack.md R141): the byte popped and the state with SP moved up. -/
def popValue (s : State) : Except Error (Byte × State) :=
  if s.sp = 255#8 then .error (.outOfBounds .spIncrement 256)
  else .ok (s.memRead s.sp.toNat, s.setReg Config.spIndex (s.sp + 1#8))

end Sys2Proof.Machine
end

