-- ==== Sys2Proof/Machine/Alu.lean ====
section
/-! DEFINITION. The ALU, MUL and ADD (spec/42_alu.md R120 to R124). The CORE has no flags (10_state.md R33), so an operation has a
result and nothing else. -/

namespace Sys2Proof.Machine

/-- The result of the ALU operation that the opcode byte names (R120): the exact sum or product of the unsigned operands, reduced
mod 256 (R124; the spec's decision D1). Any other name raises `UnsupportedOperation` (R123). Log entry 16. -/
def aluResult (op va vb : Byte) : Except Error Byte :=
  if op = 0xA0#8 then .ok (BitVec.ofNat 8 (va.toNat + vb.toNat))
  else if op = 0xA2#8 then .ok (BitVec.ofNat 8 (va.toNat * vb.toNat))
  else .error (.unsupportedOperation op)

/-- `ALU(name, a, b)` (R120): both sources are read before the destination `x[a]` is written. -/
def alu (op : Byte) (a b : RegIdx) (s : State) : Except Error State := do
  let v ← aluResult op (s.reg a) (s.reg b)
  return s.setReg a v

/-- The shared body of the two ALU instructions: `b1` is checked before `b2` (40_engine.md R86). -/
def aluInstr (op b1 b2 : Byte) (s : State) : StepResult :=
  finish s do
    let a ← regIdx b1
    let b ← regIdx b2
    let t ← alu op a b s
    return t.advance 3

/-- MUL (R121). -/
def execMul (b1 b2 : Byte) (s : State) : StepResult := aluInstr 0xA2#8 b1 b2 s

/-- ADD (R122). -/
def execAdd (b1 b2 : Byte) (s : State) : StepResult := aluInstr 0xA0#8 b1 b2 s

end Sys2Proof.Machine
end

