-- ==== Sys2Proof/Machine/CallReturn.lean ====
section
/-! DEFINITION. CALL and RET (spec/44_call_return.md R160, R161). -/

namespace Sys2Proof.Machine

/-- The byte that holds the return address `ra`; one above 255 raises `OutOfBounds(ReturnAddress, ra)` rather than being
truncated (R160; 90_conflicts.md C7). -/
def returnAddress (ra : Nat) : Except Error Byte :=
  if ra > 255 then .error (.outOfBounds .returnAddress ra) else .ok (BitVec.ofNat 8 ra)

/-- CALL (R160): the target is read before the push, the return address is checked before SP is. -/
def execCall (b1 : Byte) (s : State) : StepResult :=
  finish s do
    let r ← regIdx b1
    let target := s.reg r
    let ra ← returnAddress (s.pc + 2)
    let t ← pushValue ra s
    return t.setPc target.toNat

/-- RET (R161). -/
def execRet (s : State) : StepResult :=
  finish s do
    let (v, t) ← popValue s
    return t.setPc v.toNat

end Sys2Proof.Machine
end

