-- ==== Sys2Proof/Machine/HaltLoadPrint.lean ====
section
/-! DEFINITION. HLT, LDI and PRN (spec/41_halt_load_print.md R100 to R102). -/

namespace Sys2Proof.Machine

/-- HLT (R100): the pc is not written. -/
def execHlt (s : State) : StepResult :=
  finish s (.ok (s.setStatus .halted))

/-- LDI (R101). -/
def execLdi (b1 b2 : Byte) (s : State) : StepResult :=
  finish s do
    let r ← regIdx b1
    return (s.setReg r b2).advance 3

/-- PRN (R102). -/
def execPrn (b1 : Byte) (s : State) : StepResult :=
  finish s do
    let r ← regIdx b1
    return (s.emit (s.reg r)).advance 2

end Sys2Proof.Machine
end

