-- ==== Sys2Proof/Machine/Stack.lean ====
section
/-! DEFINITION. PUSH and POP (spec/43_stack.md R142, R143). -/

namespace Sys2Proof.Machine

/-- PUSH (R142): the value is read before SP changes, so `PUSH R7` pushes the SP from before the push. -/
def execPush (b1 : Byte) (s : State) : StepResult :=
  finish s do
    let r ← regIdx b1
    let t ← pushValue (s.reg r) s
    return t.advance 2

/-- POP (R143): the destination is written after SP is incremented, so `POP R7` leaves the popped byte in SP. -/
def execPop (b1 : Byte) (s : State) : StepResult :=
  finish s do
    let r ← regIdx b1
    let (v, t) ← popValue s
    return (t.setReg r v).advance 2

end Sys2Proof.Machine
end

