-- ==== Sys2Proof/Syntax.lean ====
section
/-! DEFINITION. The instructions: one constructor per row of spec/opcode_table.json, with the operand bytes of 30_encoding.md R60.

An operand is the WHOLE operand byte (R62): it is not masked to three bits, and a byte above 7 in a register operand still
decodes (R68). The check that it names a register is made when the instruction executes (40_engine.md R86). -/

namespace Sys2Proof

/-- The nine instructions (00_scope.md R2, 30_encoding.md R63). Operand names are the source's (R60). -/
inductive Instr where
  /-- HLT: halt (41_halt_load_print.md R100). -/
  | hlt
  /-- LDI: load immediate (41_halt_load_print.md R101). -/
  | ldi (regNum value : Byte)
  /-- PRN: print register (41_halt_load_print.md R102). -/
  | prn (regNum : Byte)
  /-- MUL: multiply registers (42_alu.md R121). -/
  | mul (regA regB : Byte)
  /-- ADD: add registers (42_alu.md R122). -/
  | add (regA regB : Byte)
  /-- PUSH: push register (43_stack.md R142). -/
  | push (regNum : Byte)
  /-- POP: pop into register (43_stack.md R143). -/
  | pop (regNum : Byte)
  /-- CALL: call the subroutine at a register's address (44_call_return.md R160). -/
  | call (regNum : Byte)
  /-- RET: return from subroutine (44_call_return.md R161). -/
  | ret
  deriving DecidableEq, Repr

end Sys2Proof
end

