-- ==== Sys2Proof/Machine/Dispatch.lean ====
section
/-! DEFINITION. `Execute(op, p, b1, b2)`: the rule of the instruction that the opcode selects (spec/40_engine.md R88). -/

namespace Sys2Proof.Machine

def exec (i : Instr) (s : State) : Host.Outcome State Fault Refusal :=
  match i with
  | .hlt => Sys2Proof.Machine.execHlt s
  | .ldi regNum value => Sys2Proof.Machine.execLdi regNum value s
  | .prn regNum => Sys2Proof.Machine.execPrn regNum s
  | .mul regA regB => Sys2Proof.Machine.execMul regA regB s
  | .add regA regB => Sys2Proof.Machine.execAdd regA regB s
  | .push regNum => Sys2Proof.Machine.execPush regNum s
  | .pop regNum => Sys2Proof.Machine.execPop regNum s
  | .call regNum => Sys2Proof.Machine.execCall regNum s
  | .ret => Sys2Proof.Machine.execRet s

end Sys2Proof.Machine
end

