-- ==== Sys2Proof/WellFormed.lean ====
section
/-! DEFINITION. Well-formed instructions: those whose register operands name a register (10_state.md R20; an assembler refuses
any other register number, 30_encoding.md R70).

An ill-formed instruction is still encoded, decoded and executed: it raises `OutOfBounds(Register, b)` (R68, 40_engine.md R86).
Log entry 9 (DESIGN CHOICE, safe). -/

namespace Sys2Proof

/-- The operand byte names one of the registers R0..R7. -/
def regOperandOk (b : Byte) : Bool := b.toNat ≤ 7

/-- Every register operand of the instruction names a register. The `value` of LDI is no register number (R86). -/
def Instr.wellFormed : Instr → Bool
  | .hlt => true
  | .ldi regNum _ => regOperandOk regNum
  | .prn regNum => regOperandOk regNum
  | .mul regA regB => regOperandOk regA && regOperandOk regB
  | .add regA regB => regOperandOk regA && regOperandOk regB
  | .push regNum => regOperandOk regNum
  | .pop regNum => regOperandOk regNum
  | .call regNum => regOperandOk regNum
  | .ret => true

end Sys2Proof
end

