-- ==== Sys2Proof/Decode.lean ====
section
/-! DEFINITION. The decoder and the encoder, from the opcode map of spec/30_encoding.md R63 and the formats of R60. -/

namespace Sys2Proof

/-- The nine operations the opcode byte can select (R63). -/
inductive Opcode where
  | hlt | ldi | prn | mul | add | push | pop | call | ret
  deriving DecidableEq, Repr

/-- Why a byte string is no instruction. -/
inductive Reject where
  /-- There is no opcode byte. -/
  | noByte
  /-- The opcode byte is one of the 247 unlisted ones (R66). -/
  | unknownOpcode (op : Byte)
  /-- The opcode is listed, but the string ends before its last operand byte. -/
  | truncated (oc : Opcode)
  deriving DecidableEq, Repr

/-- The exact match of all 8 bits of the opcode byte, in the bit patterns of R63's table; every other byte is illegal (R66). -/
def decodeOpcode (b : Byte) : Option Opcode :=
  if b = 0b00000001#8 then some .hlt
  else if b = 0b10000010#8 then some .ldi
  else if b = 0b01000111#8 then some .prn
  else if b = 0b10100010#8 then some .mul
  else if b = 0b10100000#8 then some .add
  else if b = 0b01000101#8 then some .push
  else if b = 0b01000110#8 then some .pop
  else if b = 0b01010000#8 then some .call
  else if b = 0b00010001#8 then some .ret
  else none

/-- The length in bytes that R63's table gives the opcode; the opcode byte alone decides it (R64). -/
def Opcode.length : Opcode → Nat
  | .hlt => 1
  | .ldi => 3
  | .prn => 2
  | .mul => 3
  | .add => 3
  | .push => 2
  | .pop => 2
  | .call => 2
  | .ret => 1

/-- The number of operand bytes: `n` of the step's pseudocode (40_engine.md R82). -/
def Opcode.operandCount (oc : Opcode) : Nat := oc.length - 1

/-- The instruction an opcode makes of its operand bytes (R60); a byte the format does not have is not looked at. -/
def Opcode.instr (oc : Opcode) (b1 b2 : Byte) : Instr :=
  match oc with
  | .hlt => .hlt
  | .ldi => .ldi b1 b2
  | .prn => .prn b1
  | .mul => .mul b1 b2
  | .add => .add b1 b2
  | .push => .push b1
  | .pop => .pop b1
  | .call => .call b1
  | .ret => .ret

/-- Take the opcode's operand bytes off the string (R60: operands at ascending addresses after the opcode byte). -/
def decodeOperands (oc : Opcode) (bytes : List Byte) : Except Reject (Instr × List Byte) :=
  match oc.operandCount, bytes with
  | 0, rest => .ok (oc.instr 0#8 0#8, rest)
  | 1, b1 :: rest => .ok (oc.instr b1 0#8, rest)
  | 2, b1 :: b2 :: rest => .ok (oc.instr b1 b2, rest)
  | _, _ => .error (.truncated oc)

/-- The decoder: the instruction at the head of a byte string, lowest address first, and the bytes after it; total, and
rejecting by name. -/
def decode : List Byte → Except Reject (Instr × List Byte)
  | [] => .error .noByte
  | op :: rest =>
    match decodeOpcode op with
    | none => .error (.unknownOpcode op)
    | some oc => decodeOperands oc rest

/-- The bytes of an instruction, lowest address first (R60, R63, R70). -/
def encode : Instr → List Byte
  | .hlt => [0x01#8]
  | .ldi regNum value => [0x82#8, regNum, value]
  | .prn regNum => [0x47#8, regNum]
  | .mul regA regB => [0xA2#8, regA, regB]
  | .add regA regB => [0xA0#8, regA, regB]
  | .push regNum => [0x45#8, regNum]
  | .pop regNum => [0x46#8, regNum]
  | .call regNum => [0x50#8, regNum]
  | .ret => [0x11#8]

/-- Byte `k` of the instruction whose `nbits` table bits are `w`. The opcode table numbers an instruction's bits as ONE
big-endian string of its bytes: the opcode byte is the most significant of the `nbits` bits. Bytes past them are zero.
Log entry 4 (DEDUCED from the table's own note and its `fixed` columns). -/
def tableByte (nbits w k : Nat) : Byte :=
  if 8 * (k + 1) ≤ nbits then BitVec.ofNat 8 (w >>> (nbits - 8 * (k + 1))) else 0#8

/-- The bytes, up to the longest instruction, of the instruction whose `nbits` table bits are `w`. -/
def tableBytes (nbits w : Nat) : List Byte :=
  [tableByte nbits w 0, tableByte nbits w 1, tableByte nbits w 2]

/-- The instruction the decoder reads from a row's bits, numbered as spec/opcode_table.json numbers them. -/
def decodeTableWord (nbits w : Nat) : Option Instr :=
  match decode (tableBytes nbits w) with
  | .ok (i, _) => some i
  | .error _ => none

end Sys2Proof
end

