-- ==== Sys2Proof/Machine/Fetch.lean ====
section
/-! DEFINITION. Fetching and decoding the instruction at the pc (spec/40_engine.md R82, R84, R85). -/

namespace Sys2Proof.Machine

/-- `FetchDecode(p)` (R84): the opcode at the pc. -/
def fetchDecode (s : State) : Except Error Opcode :=
  if s.pc > 255 then .error (.outOfBounds .fetch s.pc)
  else
    match decodeOpcode (s.memRead s.pc) with
    | none => .error (.unknownOpcode (s.memRead s.pc))
    | some oc => .ok oc

/-- `OperandFetch(p, k)` (R85). -/
def operandFetch (s : State) (k : Nat) : Except Error Byte :=
  if s.pc + k > 255 then .error (.outOfBounds .operand (s.pc + k : Nat)) else .ok (s.memRead (s.pc + k))

/-- The part of `Step()` before `Execute` (R82): opcode, then operand 1, then operand 2, as many as the opcode has. -/
def fetchInstr (s : State) : Except Error Instr := do
  let oc ← fetchDecode s
  let b1 ← if oc.operandCount ≥ 1 then operandFetch s 1 else .ok 0#8
  let b2 ← if oc.operandCount ≥ 2 then operandFetch s 2 else .ok 0#8
  return oc.instr b1 b2

/-- Every memory byte from the pc up to the last cell, lowest address first: what the decoder is shown. -/
def State.bytesFromPc (s : State) : List Byte :=
  (List.range' s.pc (Config.memSize - s.pc)).map s.memRead

/-- The memory with `bytes` stored from address `a` upwards, as far as there are cells. -/
def Memory.place (m : Memory) (a : Nat) (bytes : List Byte) : Memory :=
  m.writeBytes a (bytes.take (Config.memSize - a))

end Sys2Proof.Machine
end

