-- ==== Sys2Proof/Machine/Step.lean ====
section
/-! DEFINITION. One step of the CORE (spec/40_engine.md R82), and the state in which the next step runs a given word. -/

namespace Sys2Proof.Machine

/-- `Step()` (R82): one whole instruction, from fetch to its last write. A step is defined only when the status is `Running`
(log entry 2); a fault of the fetch or the decode takes fault entry (60_exceptions.md R190; log entry 1). -/
def step (s : State) : Host.Outcome State Fault Refusal :=
  match s.status with
  | .halted => .fault .halted
  | .faulted e => .fault (.faulted e)
  | .running =>
    match fetchInstr s with
    | .error e => finish s (.error e)
    | .ok i => exec i s

/-- `s` with the instruction's bytes stored at the pc and the status `Running`: it stands for the load of a program from outside
and the `start` input, without which no step exists (70_reset_and_hazards.md R215). Log entries 3 and 4. -/
def State.withFetchWord (s : State) (nbits w : Nat) : State :=
  { s with mem := s.mem.place s.pc (tableBytes nbits w), status := .running }

end Sys2Proof.Machine
end

