-- ==== Sys2Proof/Machine/Assembly.lean ====
section
/-! DEFINITION. The assembly of spec/30_encoding.md R70 and the disassembly of R72, over items rather than text: notation, not
hardware (D19). Log entry 14 (DESIGN CHOICE, safe). -/

namespace Sys2Proof.Machine

/-- One line of a program (R70): an instruction, an LDI whose immediate is a label, a label, or a raw byte. R70 does not say where a
label's name may be used; the model takes it as LDI's immediate only: log entry 14 (DESIGN CHOICE, safe). -/
inductive AsmItem where
  | instr (i : Instr)
  | ldiLabel (regNum : Byte) (name : String)
  | label (name : String)
  | byte (v : Byte)
  deriving DecidableEq, Repr

/-- How many bytes a line stands for. -/
def AsmItem.size : AsmItem → Nat
  | .instr i => (encode i).length
  | .ldiLabel _ _ => 3
  | .label _ => 0
  | .byte _ => 1

/-- The bytes a disassembled line stands for: no register check is made here, and labels stand for none. -/
def AsmItem.rawBytes : AsmItem → List Byte
  | .instr i => encode i
  | .ldiLabel _ _ => []
  | .label _ => []
  | .byte v => [v]

/-- The address of the next byte after the label, the program starting at `a` (R70). Where a name labels two lines, R70 does not say
which address it stands for; the model takes the first and refuses nothing: log entry 14 (DESIGN CHOICE, safe). -/
def labelAddress (name : String) : List AsmItem → Nat → Option Nat
  | [], _ => none
  | item :: items, a => if item = .label name then some a else labelAddress name items (a + item.size)

/-- The bytes of one line of `program`; an assembler refuses a register number above 7 (R70). R70 does not say what a name that labels
no line means, or one whose address is above 255; the model refuses the line: log entry 14 (DESIGN CHOICE, safe). -/
def assembleItem (program : List AsmItem) : AsmItem → Option (List Byte)
  | .instr i => if i.wellFormed then some (encode i) else none
  | .ldiLabel regNum name =>
    match labelAddress name program 0 with
    | none => none
    | some a => if regOperandOk regNum && decide (a ≤ 255) then some (encode (.ldi regNum (BitVec.ofNat 8 a))) else none
  | .label _ => some []
  | .byte v => some [v]

/-- The bytes of lines of `program`, one after the other. -/
def assembleItems (program : List AsmItem) : List AsmItem → Option (List Byte)
  | [] => some []
  | item :: items =>
    match assembleItem program item, assembleItems program items with
    | some bytes, some rest => some (bytes ++ rest)
    | _, _ => none

/-- The image of a program; `none` where the assembler refuses a line. -/
def assemble (program : List AsmItem) : Option (List Byte) := assembleItems program program

/-- Disassembly with fuel: an illegal opcode byte is shown as `.byte` and the next byte taken as a new start (R72). -/
def disassembleFuel : Nat → List Byte → List AsmItem
  | 0, _ => []
  | _ + 1, [] => []
  | fuel + 1, b :: bytes =>
    match decode (b :: bytes) with
    | .ok (i, rest) => .instr i :: disassembleFuel fuel rest
    | .error _ => .byte b :: disassembleFuel fuel bytes

/-- Disassembly of a byte string (R72). R72 does not say how a last instruction whose operand bytes are missing is shown; the model shows
its opcode byte as a raw byte and takes the next byte as a new start: log entry 14 (DESIGN CHOICE, safe). -/
def disassemble (bytes : List Byte) : List AsmItem := disassembleFuel bytes.length bytes

/-- A register operand byte as text: R70 spells 0 to 7 as `R0` to `R7`. R70 and R72 do not say how a disassembler writes the register
byte 8 to 255 of a legal opcode (R68 lets it be encoded); the model writes `R8` to `R255`, which an assembler refuses (R70):
log entry 14 (DESIGN CHOICE, safe). -/
def regText (b : Byte) : String := "R" ++ Nat.repr b.toNat

/-- An instruction as R70 writes it. Of the numerals R70 allows for an immediate the model writes the decimal one: log entry 14
(DESIGN CHOICE, safe). -/
def instrText : Instr → String
  | .hlt => "HLT"
  | .ldi regNum value => "LDI " ++ regText regNum ++ ", " ++ Nat.repr value.toNat
  | .prn regNum => "PRN " ++ regText regNum
  | .mul regA regB => "MUL " ++ regText regA ++ ", " ++ regText regB
  | .add regA regB => "ADD " ++ regText regA ++ ", " ++ regText regB
  | .push regNum => "PUSH " ++ regText regNum
  | .pop regNum => "POP " ++ regText regNum
  | .call regNum => "CALL " ++ regText regNum
  | .ret => "RET"

end Sys2Proof.Machine
end

