-- ==== Sys2Proof/Machine/Faults.lean ====
section
/-! DEFINITION. The numeric codes of the errors (spec/60_exceptions.md R180, R181; labels with no architectural meaning, D12). -/

namespace Sys2Proof.Machine

/-- The error code 1..5 of R180. -/
def Error.code : Error → Nat
  | .unknownOpcode _ => 1
  | .outOfBounds _ _ => 2
  | .unsupportedOperation _ => 3
  | .malformedProgramLine => 4
  | .programNotFound => 5

/-- The sub-code 0..6 of R181. -/
def BoundsKind.code : BoundsKind → Nat
  | .fetch => 0
  | .operand => 1
  | .register => 2
  | .spDecrement => 3
  | .spIncrement => 4
  | .returnAddress => 5
  | .load => 6

end Sys2Proof.Machine
end

