-- ==== Sys2Proof/Machine/HostPort.lean ====
section
/-! DEFINITION. The ports of the CORE's interface (spec/00_scope.md R9): the inputs `reset(image)` and `start` (70_reset_and_hazards.md
R210 to R214), and what the host reads (R227). They arrive between steps (60_exceptions.md R193). Log entry 11 (DESIGN CHOICE, unsafe). -/

namespace Sys2Proof.Machine

/-- `start` (70_reset_and_hazards.md R213): `Halted` becomes `Running`; ignored in `Running` and in `Faulted`. -/
def start (s : State) : State :=
  match s.status with
  | .halted => s.setStatus .running
  | .running => s
  | .faulted _ => s

/-- `Load(image)` (70_reset_and_hazards.md R211), all or nothing, onto a state with the reset values. -/
def load (image : List Byte) (s : State) : State :=
  if image.length > Config.memSize then s.setStatus (.faulted ⟨.outOfBounds .load Config.memSize, 0⟩)
  else { s with mem := s.mem.writeBytes Config.loadBase image }

/-- `reset(image)` (70_reset_and_hazards.md R210): every piece of state to its reset value, then the load. Nothing of the state
before it is looked at. -/
def resetImage (image : List Byte) : State := load image State.reset

/-- What the host may send (00_scope.md R9, 70_reset_and_hazards.md R227). -/
inductive HostInput where
  | reset (image : List Byte)
  | start
  deriving DecidableEq, Repr

/-- The state after a host input, which may arrive in any state. -/
def hostInput : HostInput → State → State
  | .reset image, _ => resetImage image
  | .start, s => start s

/-- What the host reads off the CORE: the `status` and `out` ports (00_scope.md R9), and nothing of memory or registers
(70_reset_and_hazards.md R227). -/
structure HostView where
  status : Status
  out : List Byte
  deriving DecidableEq, Repr

/-- The ports as the host may read them at any time, in `Running` as in the other statuses; reading changes nothing
(70_reset_and_hazards.md R227). -/
def State.hostView (s : State) : HostView := ⟨s.status, s.out⟩

end Sys2Proof.Machine
end

