-- ==== Sys2Proof/Machine/Run.lean ====
section
/-! DEFINITION. The run state machine and the run loop (spec/40_engine.md R80, R81), and what a run shows (00_scope.md R10). -/

namespace Sys2Proof.Machine

/-- The events of R80's table: a host input, or one step of the run loop. -/
inductive Event where
  | host (input : HostInput)
  | step
  deriving DecidableEq, Repr

/-- The state after an event; `none` where there is no step (R82). -/
def event : Event → State → Option State
  | .host input, s => some (hostInput input s)
  | .step, s =>
    match step s with
    | .next t => some t
    | .fault _ => none
    | .refused _ => none

/-- At most `fuel` steps of the run loop, which looks at the status before each (R81). Running out of fuel is not an end:
the status is then still `Running` (D20; log entry 15). -/
def run : Nat → State → State
  | 0, s => s
  | fuel + 1, s =>
    match event .step s with
    | some t => run fuel t
    | none => s

/-- The observation of a run that has ended (00_scope.md R10): the values sent, the final status, the final state. -/
structure Observation where
  out : List Byte
  status : Status
  final : State
  deriving DecidableEq, Repr

/-- The observation a run leaves behind, none as long as it is `Running` (R10). It is no port: what the host may read at any time is
`State.hostView` (70_reset_and_hazards.md R227). -/
def State.observe (s : State) : Option Observation :=
  match s.status with
  | .running => none
  | .halted => some ⟨s.out, s.status, s⟩
  | .faulted _ => some ⟨s.out, s.status, s⟩

end Sys2Proof.Machine
end

