-- ==== Sys2Proof/Safety.lean ====
section
/-! DEFINITION. What a safe run is, in the terms the statements use: the invariant of the machine, the order in which one step's
checks are made, and the tables of spec/ that say which register or error an instruction may touch. -/

namespace Sys2Proof.Machine

/-- A run is safe as long as it has not entered `Faulted` (60_exceptions.md R190). -/
def State.safe (s : State) : Bool :=
  match s.status with
  | .halted => true
  | .running => true
  | .faulted _ => false

/-- The errors a CORE fault record can hold, with the values 60_exceptions.md R181 gives each: kinds 3, 4 and 5 are none of them
(42_alu.md R123, 60_exceptions.md R182). -/
def Error.ofCore : Error → Bool
  | .unknownOpcode op => decide (decodeOpcode op = none)
  | .outOfBounds .fetch v => decide (v = 256)
  | .outOfBounds .operand v => decide (v = 256)
  | .outOfBounds .register v => decide (8 ≤ v ∧ v ≤ 255)
  | .outOfBounds .spDecrement v => decide (v = -1)
  | .outOfBounds .spIncrement v => decide (v = 256)
  | .outOfBounds .returnAddress v => decide (v = 256)
  | .outOfBounds .load v => decide (v = 256)
  | .unsupportedOperation _ => false
  | .malformedProgramLine => false
  | .programNotFound => false

/-- The fault record, where there is one, holds a CORE error and the pc at which the machine still stands (R190). -/
def State.recordOk (s : State) : Bool :=
  match s.status with
  | .halted => true
  | .running => true
  | .faulted e => e.error.ofCore && decide (e.pc = s.pc)

/-- The invariant of the machine: canonical memory within 0..255, a pc within 0..256 (10_state.md R25), a true fault record. -/
def State.Inv (s : State) : Prop := s.mem.wf = true ∧ s.pc ≤ 256 ∧ s.recordOk = true

/-- The opcode bytes of 40_engine.md R84. -/
def listedOpcodes : List Byte := [0x01#8, 0x82#8, 0x47#8, 0xA2#8, 0xA0#8, 0x45#8, 0x46#8, 0x50#8, 0x11#8]

/-- The opcode bytes of the instructions with three bytes (30_encoding.md R63). -/
def threeByteOpcodes : List Byte := [0x82#8, 0xA2#8, 0xA0#8]

/-- The opcode bytes of the instructions with two bytes (30_encoding.md R63). -/
def twoByteOpcodes : List Byte := [0x47#8, 0x45#8, 0x46#8, 0x50#8]

/-- The checks of one step with the error each raises, in the order of 60_exceptions.md R185, read off the bytes at the pc. -/
def stepChecks (s : State) : List (Bool × Error) :=
  let op := s.mem.read s.pc
  let b1 := s.mem.read (s.pc + 1)
  let b2 := s.mem.read (s.pc + 2)
  [ (decide (s.pc > 255), .outOfBounds .fetch s.pc),
    (decide (op ∉ listedOpcodes), .unknownOpcode op),
    (decide (op ∈ twoByteOpcodes ++ threeByteOpcodes ∧ s.pc + 1 > 255), .outOfBounds .operand (s.pc + 1 : Nat)),
    (decide (op ∈ threeByteOpcodes ∧ s.pc + 2 > 255), .outOfBounds .operand (s.pc + 2 : Nat)),
    (decide (op ∈ twoByteOpcodes ++ threeByteOpcodes ∧ b1.toNat > 7), .outOfBounds .register b1.toNat),
    (decide ((op = 0xA2#8 ∨ op = 0xA0#8) ∧ b2.toNat > 7), .outOfBounds .register b2.toNat),
    (decide (op = 0x50#8 ∧ s.pc + 2 > 255), .outOfBounds .returnAddress (s.pc + 2 : Nat)),
    (decide ((op = 0x45#8 ∨ op = 0x50#8) ∧ s.sp = 0#8), .outOfBounds .spDecrement (-1)),
    (decide ((op = 0x46#8 ∨ op = 0x11#8) ∧ s.sp = 255#8), .outOfBounds .spIncrement 256) ]

/-- The error of the first check that fails (R185), `none` if none does. -/
def firstFault (s : State) : Option Error := ((stepChecks s).find? (·.1)).map (·.2)

/-- The table of 60_exceptions.md R183: the errors an instruction can raise besides the fetch and decode faults. -/
def mayRaise : Opcode → Error → Bool
  | .hlt, _ => false
  | .ldi, .outOfBounds sub _ => decide (sub = .operand ∨ sub = .register)
  | .prn, .outOfBounds sub _ => decide (sub = .operand ∨ sub = .register)
  | .mul, .outOfBounds sub _ => decide (sub = .operand ∨ sub = .register)
  | .add, .outOfBounds sub _ => decide (sub = .operand ∨ sub = .register)
  | .push, .outOfBounds sub _ => decide (sub = .operand ∨ sub = .register ∨ sub = .spDecrement)
  | .pop, .outOfBounds sub _ => decide (sub = .operand ∨ sub = .register ∨ sub = .spIncrement)
  | .call, .outOfBounds sub _ => decide (sub = .operand ∨ sub = .register ∨ sub = .returnAddress ∨ sub = .spDecrement)
  | .ret, .outOfBounds sub _ => decide (sub = .spIncrement)
  | _, _ => false

/-- The `writes` column of 10_state.md R22's table: the instruction may write register `j`. -/
def mayWrite (i : Instr) (j : RegIdx) : Bool :=
  match i with
  | .hlt => false
  | .ldi regNum _ => decide (regNum.toNat = j.val)
  | .prn _ => false
  | .mul regA _ => decide (regA.toNat = j.val)
  | .add regA _ => decide (regA.toNat = j.val)
  | .push _ => decide (j = Config.spIndex)
  | .pop regNum => decide (regNum.toNat = j.val ∨ j = Config.spIndex)
  | .call _ => decide (j = Config.spIndex)
  | .ret => decide (j = Config.spIndex)

end Sys2Proof.Machine
end

