-- ==== Sys2Proof/Certificates/Slice0/Obligations.lean ====
section
/-! DEFINITION. The statements for the provers. A docstring names the rule of spec/ a statement formalises; where a rule rests on
one of the spec's own decisions (D<n> of 92_eei_decisions.md) the docstring says so and the statement's basis is 'derived'. -/

open Sys2Proof Sys2Proof.Machine

/-! ### Each instruction: where it completes, its result and its frame -/

/-- 41_halt_load_print.md R100. HLT sets the status and nothing else; a later `start` executes the same HLT again. -/
def Obligations.HltHaltsInPlace : Prop :=
  ∀ s : State,
    exec .hlt s = .next { s with status := .halted } ∧
    (s.status = .running → s.pc ≤ 255 → s.mem.read s.pc = 0x01#8 →
      step s = .next { s with status := .halted } ∧
      step (start { s with status := .halted }) = .next { s with status := .halted })

/-- 41_halt_load_print.md R101, whole: the result and frame for every register, the raise for a byte that names none, the encoding
at the pc, the missing operand byte, and the advance to 256 with the fetch fault after it. -/
def Obligations.LdiLoadsImmediate : Prop :=
  ∀ (s : State) (b1 b2 : Byte),
    (∀ r : RegIdx, b1.toNat = r.val →
      ∃ t, exec (.ldi b1 b2) s = .next t ∧ t.reg r = b2 ∧ (r = Config.spIndex → t.sp = b2) ∧ (∀ j, j ≠ r → t.reg j = s.reg j) ∧ t.pc = s.pc + 3 ∧
        (∀ a, t.mem.read a = s.mem.read a) ∧ t.status = s.status ∧ t.out = s.out) ∧
    (7 < b1.toNat →
      exec (.ldi b1 b2) s = .next { s with status := .faulted ⟨.outOfBounds .register b1.toNat, s.pc⟩ }) ∧
    (s.status = .running → s.mem.read s.pc = 0x82#8 →
      (s.pc ≤ 253 → s.mem.read (s.pc + 1) = b1 → s.mem.read (s.pc + 2) = b2 → step s = exec (.ldi b1 b2) s) ∧
      (s.pc = 254 ∨ s.pc = 255 → step s = .next { s with status := .faulted ⟨.outOfBounds .operand 256, s.pc⟩ }) ∧
      (s.pc = 253 → s.mem.read 254 = b1 → b1.toNat ≤ 7 →
        ∃ t, step s = .next t ∧ t.pc = 256 ∧
          step t = .next { t with status := .faulted ⟨.outOfBounds .fetch 256, 256⟩ }))

/-- PRN emits exactly one value, the register's, and changes nothing but the pc (41_halt_load_print.md section of PRN; the value is
the raw byte by the spec's decision D18). -/
def Obligations.PrnEmitsOneValue : Prop :=
  ∀ (s : State) (b : Byte) (r : RegIdx), b.toNat = r.val →
    ∃ t, exec (.prn b) s = .next t ∧ t.out = s.out ++ [s.reg r] ∧ t.pc = s.pc + 2 ∧ (∀ j, t.reg j = s.reg j) ∧
      (∀ a, t.mem.read a = s.mem.read a) ∧ t.status = s.status

/-- MUL writes the product mod 256 into its first operand and changes nothing else but the pc (42_alu.md section 2; the reduction
is the spec's decision D1). Source and destination may be one register. -/
def Obligations.MulMultipliesModulo256 : Prop :=
  ∀ (s : State) (b1 b2 : Byte) (a b : RegIdx), b1.toNat = a.val → b2.toNat = b.val →
    ∃ t, exec (.mul b1 b2) s = .next t ∧ (t.reg a).toNat = ((s.reg a).toNat * (s.reg b).toNat) % 256 ∧
      (∀ j, j ≠ a → t.reg j = s.reg j) ∧ t.pc = s.pc + 3 ∧ (∀ n, t.mem.read n = s.mem.read n) ∧ t.status = s.status ∧
      t.out = s.out

/-- ADD writes the sum mod 256 into its first operand and changes nothing else but the pc (42_alu.md section 2; the reduction is
the spec's decision D1). Source and destination may be one register. -/
def Obligations.AddAddsModulo256 : Prop :=
  ∀ (s : State) (b1 b2 : Byte) (a b : RegIdx), b1.toNat = a.val → b2.toNat = b.val →
    ∃ t, exec (.add b1 b2) s = .next t ∧ (t.reg a).toNat = ((s.reg a).toNat + (s.reg b).toNat) % 256 ∧
      (∀ j, j ≠ a → t.reg j = s.reg j) ∧ t.pc = s.pc + 3 ∧ (∀ n, t.mem.read n = s.mem.read n) ∧ t.status = s.status ∧
      t.out = s.out

/-- PUSH stores the register's value from before the decrement at the new SP (43_stack.md sections 1 and 2; the order is the spec's
decision D9). For R7 the byte stored is the old SP. The memory is canonical, which every step keeps. -/
def Obligations.PushStoresBelowStackPointer : Prop :=
  ∀ (s : State) (b : Byte) (r : RegIdx), s.mem.wf = true → b.toNat = r.val → s.sp ≠ 0#8 →
    ∃ t, exec (.push b) s = .next t ∧ t.sp.toNat = s.sp.toNat - 1 ∧ (∀ j, j ≠ Config.spIndex → t.reg j = s.reg j) ∧
      t.pc = s.pc + 2 ∧ s.pushAddress = s.sp.toNat - 1 ∧ t.mem.read s.pushAddress = s.reg r ∧
      (∀ a, a ≠ s.pushAddress → t.mem.read a = s.mem.read a) ∧ t.status = s.status ∧ t.out = s.out

/-- POP reads the byte at SP, moves SP up, and then writes the destination, so that `POP R7` leaves the popped byte in SP (43_stack.md
sections 1 and 2; the order is the spec's decision D9). The popped cell keeps its value. -/
def Obligations.PopLoadsThenWritesDestination : Prop :=
  ∀ (s : State) (b : Byte) (r : RegIdx), b.toNat = r.val → s.sp ≠ 255#8 →
    ∃ t, exec (.pop b) s = .next t ∧ t.reg r = s.mem.read s.sp.toNat ∧
      (r ≠ Config.spIndex → t.sp.toNat = s.sp.toNat + 1) ∧
      (∀ j, j ≠ r → j ≠ Config.spIndex → t.reg j = s.reg j) ∧ t.pc = s.pc + 2 ∧
      (∀ a, t.mem.read a = s.mem.read a) ∧ t.status = s.status ∧ t.out = s.out

/-- CALL pushes the address of the byte after it and goes to the target read before the push (44_call_return.md CALL; the spec's
decisions D8 and D9). -/
def Obligations.CallPushesReturnAddress : Prop :=
  ∀ (s : State) (b : Byte) (r : RegIdx), s.mem.wf = true → b.toNat = r.val → s.pc ≤ 253 → s.sp ≠ 0#8 →
    ∃ t, exec (.call b) s = .next t ∧ t.pc = (s.reg r).toNat ∧ t.sp.toNat = s.sp.toNat - 1 ∧
      (∀ j, j ≠ Config.spIndex → t.reg j = s.reg j) ∧ s.pushAddress = s.sp.toNat - 1 ∧
      (t.mem.read s.pushAddress).toNat = s.pc + 2 ∧ (∀ a, a ≠ s.pushAddress → t.mem.read a = s.mem.read a) ∧
      t.status = s.status ∧ t.out = s.out

/-- RET goes to the popped byte and moves SP up (44_call_return.md RET; the limit of SP is the spec's decision D7). -/
def Obligations.RetPopsProgramCounter : Prop :=
  ∀ s : State, s.sp ≠ 255#8 →
    ∃ t, exec .ret s = .next t ∧ t.pc = (s.mem.read s.sp.toNat).toNat ∧ t.sp.toNat = s.sp.toNat + 1 ∧
      (∀ j, j ≠ Config.spIndex → t.reg j = s.reg j) ∧ (∀ a, t.mem.read a = s.mem.read a) ∧ t.status = s.status ∧
      t.out = s.out

/-! ### Where an instruction raises -/

/-- A register operand byte above 7 raises `OutOfBounds(Register)` in every instruction that has one; of two such operands the first
is reported (40_engine.md section 2, the spec's decisions D5, D10 and D11). -/
def Obligations.RegisterByteAboveSevenRaises : Prop :=
  ∀ (s : State) (b : Byte), 7 < b.toNat →
    let t : State := { s with status := .faulted ⟨.outOfBounds .register b.toNat, s.pc⟩ }
    (∀ v, exec (.ldi b v) s = .next t) ∧ exec (.prn b) s = .next t ∧ exec (.push b) s = .next t ∧
    exec (.pop b) s = .next t ∧ exec (.call b) s = .next t ∧
    (∀ b2, exec (.mul b b2) s = .next t ∧ exec (.add b b2) s = .next t) ∧
    (∀ b1 : Byte, b1.toNat ≤ 7 → exec (.mul b1 b) s = .next t ∧ exec (.add b1 b) s = .next t)

/-- A push with SP = 0 and a pop with SP = 255 raise, with nothing written (43_stack.md section 1, the spec's decisions D7 and D10). -/
def Obligations.StackPointerLimitsRaise : Prop :=
  ∀ (s : State) (b : Byte), b.toNat ≤ 7 →
    (s.sp = 0#8 →
      exec (.push b) s = .next { s with status := .faulted ⟨.outOfBounds .spDecrement (-1), s.pc⟩ } ∧
      (s.pc ≤ 253 → exec (.call b) s = .next { s with status := .faulted ⟨.outOfBounds .spDecrement (-1), s.pc⟩ })) ∧
    (s.sp = 255#8 →
      exec (.pop b) s = .next { s with status := .faulted ⟨.outOfBounds .spIncrement 256, s.pc⟩ } ∧
      exec .ret s = .next { s with status := .faulted ⟨.outOfBounds .spIncrement 256, s.pc⟩ })

/-- A CALL at 254 cannot store its return address 256 and raises, whatever SP is (44_call_return.md CALL, the spec's decision D8; the
order is D11). -/
def Obligations.CallAtTheTopRaisesReturnAddress : Prop :=
  ∀ (s : State) (b : Byte), b.toNat ≤ 7 → s.pc = 254 →
    exec (.call b) s = .next { s with status := .faulted ⟨.outOfBounds .returnAddress 256, 254⟩ }

/-! ### The step -/

/-- A running step whose memory bytes from the pc on decode to an instruction is the execution of that instruction, in the same state
(40_engine.md section 2): the step adds nothing around it, the pc included. -/
def Obligations.StepRunsTheDecodedInstruction : Prop :=
  ∀ (s : State) (i : Instr) (rest : List Byte), s.status = .running → decode s.bytesFromPc = .ok (i, rest) → step s = exec i s

/-- A running step that finds no instruction raises, by the decoder's reason: no cell at the pc, an unlisted opcode byte, or an
operand byte past the last cell (40_engine.md section 2, the spec's decisions D4, D6, D10 and D13). -/
def Obligations.StepRaisesWhereNothingDecodes : Prop :=
  ∀ s : State, s.status = .running →
    (255 < s.pc → step s = .next { s with status := .faulted ⟨.outOfBounds .fetch s.pc, s.pc⟩ }) ∧
    (∀ op, decode s.bytesFromPc = .error (.unknownOpcode op) →
      op = s.mem.read s.pc ∧ step s = .next { s with status := .faulted ⟨.unknownOpcode op, s.pc⟩ }) ∧
    (∀ oc, decode s.bytesFromPc = .error (.truncated oc) →
      step s = .next { s with status := .faulted ⟨.outOfBounds .operand 256, s.pc⟩ })

/-- There is a step exactly when the status is `Running`; in `Halted` and `Faulted` it stops by name, and no instruction's execution
ever stops (40_engine.md section 2, decision D21; 60_exceptions.md section 3, decisions D10 and D17). -/
def Obligations.StepExistsExactlyWhenRunning : Prop :=
  (∀ s : State, (∃ t, step s = .next t) ↔ s.status = .running) ∧
  (∀ s : State, s.status = .halted → step s = .fault .halted) ∧
  (∀ (s : State) (e : FaultRecord), s.status = .faulted e → step s = .fault (.faulted e)) ∧
  (∀ (i : Instr) (s : State), ∃ t, exec i s = .next t)

/-- One step reports exactly the first check that fails, in the order of 60_exceptions.md section 2 (the spec's decision D11), the checks
being read off the bytes at the pc. -/
def Obligations.StepReportsFirstFailingCheck : Prop :=
  ∀ (s : State) (e : Error), s.status = .running →
    ((∃ t, step s = .next t ∧ t.status = .faulted ⟨e, s.pc⟩) ↔ firstFault s = some e)

/-- Fault entry changes the status and nothing else, and records the pc of the instruction (60_exceptions.md section 3, the spec's
decision D10). -/
def Obligations.FaultEntryIsPrecise : Prop :=
  ∀ (s t : State) (e : FaultRecord), s.status = .running → step s = .next t → t.status = .faulted e →
    t = { s with status := .faulted e } ∧ e.pc = s.pc

/-- 60_exceptions.md section 1: besides the fetch and decode faults, an instruction raises only what the table of errors lists for it,
so `UnsupportedOperation` and the loader's kinds never arise (derived there; the spec's decision D27). -/
def Obligations.StepRaisesOnlyListedErrors : Prop :=
  ∀ (s t : State) (e : FaultRecord), s.status = .running → step s = .next t → t.status = .faulted e →
    (s.pc > 255 ∧ e.error = .outOfBounds .fetch s.pc) ∨
    (decodeOpcode (s.mem.read s.pc) = none ∧ e.error = .unknownOpcode (s.mem.read s.pc)) ∨
    (∃ oc, decodeOpcode (s.mem.read s.pc) = some oc ∧ mayRaise oc e.error = true)

/-- 10_state.md R26: each instruction changes the pc in one way only, at whatever address it starts, and a faulting one leaves it
unchanged. For CALL the return address pc + 2 is on the stack. The memory is canonical, which every step keeps. -/
def Obligations.PcChangesAsTheTableGives : Prop :=
  (∀ (s t : State) (e : FaultRecord), s.status = .running → step s = .next t → t.status = .faulted e → t.pc = s.pc) ∧
  ∀ (s t : State) (i : Instr) (rest : List Byte), s.mem.wf = true → s.status = .running →
    decode s.bytesFromPc = .ok (i, rest) → step s = .next t → (∀ e, t.status ≠ .faulted e) →
    match i with
    | .hlt => (encode i).length = 1 ∧ t.pc = s.pc
    | .ldi _ _ => (encode i).length = 3 ∧ t.pc = s.pc + 3
    | .prn _ => (encode i).length = 2 ∧ t.pc = s.pc + 2
    | .mul _ _ => (encode i).length = 3 ∧ t.pc = s.pc + 3
    | .add _ _ => (encode i).length = 3 ∧ t.pc = s.pc + 3
    | .push _ => (encode i).length = 2 ∧ t.pc = s.pc + 2
    | .pop _ => (encode i).length = 2 ∧ t.pc = s.pc + 2
    | .call regNum =>
      (encode i).length = 2 ∧ (∃ r : RegIdx, regNum.toNat = r.val ∧ t.pc = (s.reg r).toNat) ∧
        (t.mem.read t.sp.toNat).toNat = s.pc + 2
    | .ret => (encode i).length = 1 ∧ t.pc = (s.mem.read s.sp.toNat).toNat

/-- 10_state.md R31: reset empties the output trace, only PRN appends to it, and nothing reads it: with any other trace the same step
sends the same values and does everything else alike. -/
def Obligations.OnlyPrnAppendsAndNothingReadsOut : Prop :=
  (∀ image : List Byte, (resetImage image).out = []) ∧
  (∀ s : State, (start s).out = s.out) ∧
  (∀ s t : State, step s = .next t → t.out = s.out ∨
    (s.pc ≤ 255 ∧ s.mem.read s.pc = 0x47#8 ∧
      ∃ r : RegIdx, (s.mem.read (s.pc + 1)).toNat = r.val ∧ t.out = s.out ++ [s.reg r])) ∧
  (∀ (s : State) (o : List Byte),
    (∀ t, step s = .next t →
      ∃ sent, t.out = s.out ++ sent ∧ step { s with out := o } = .next { t with out := o ++ sent }) ∧
    (∀ f, step s = .fault f → step { s with out := o } = .fault f))

/-- 10_state.md section 1, the table of register writes (derived there): an instruction writes no register but those listed. -/
def Obligations.RegistersChangeOnlyAsListed : Prop :=
  ∀ (i : Instr) (s t : State) (j : RegIdx), exec i s = .next t → mayWrite i j = false → t.reg j = s.reg j

/-- 20_memory.md section 2, the table of accesses: only PUSH and CALL store, and only at the new SP (the limit of SP is decision D7). -/
def Obligations.OnlyPushAndCallStore : Prop :=
  ∀ (i : Instr) (s t : State) (a : Nat), exec i s = .next t → t.mem.read a ≠ s.mem.read a →
    (∃ b, i = .push b ∨ i = .call b) ∧ a = s.pushAddress ∧ s.sp ≠ 0#8

/-- 40_engine.md section 1: the status changes only by the transitions of its table (the spec's decisions D16, D17 and D23). -/
def Obligations.StatusFollowsTheTransitionTable : Prop :=
  (∀ (image : List Byte) (s t : State), event (.host (.reset image)) s = some t →
    (image.length ≤ 256 → t.status = .halted) ∧
    (256 < image.length → t.status = .faulted ⟨.outOfBounds .load 256, 0⟩)) ∧
  (∀ s t : State, event (.host .start) s = some t →
    (s.status = .halted → t = { s with status := .running }) ∧ (s.status ≠ .halted → t = s)) ∧
  (∀ s t : State, event .step s = some t → s.status = .running ∧
    ((s.pc ≤ 255 ∧ s.mem.read s.pc = 0x01#8 ∧ t.status = .halted) ∨
     (s.mem.read s.pc ≠ 0x01#8 ∧ firstFault s = none ∧ t.status = .running) ∨
     (∃ e, firstFault s = some e ∧ t.status = .faulted ⟨e, s.pc⟩)))

/-- CALL and RET never leave the pc at 256: they set it to a byte (10_state.md section 2, the spec's decision D4). -/
def Obligations.CallAndRetKeepPcWithinMemory : Prop :=
  ∀ s t : State, s.status = .running → s.pc ≤ 255 → (s.mem.read s.pc = 0x50#8 ∨ s.mem.read s.pc = 0x11#8) →
    step s = .next t → t.pc ≤ 255

/-! ### Invariants -/

/-- Every step keeps the invariant: canonical memory within 0..255, pc within 0..256, a fault record with a CORE error of the listed
values and the machine's own pc (10_state.md section 2, 60_exceptions.md sections 1 and 3; decisions D4, D10 and D12; log entries 5 and 6). -/
def Obligations.StepKeepsInvariant : Prop :=
  ∀ s t : State, s.Inv → step s = .next t → t.Inv

/-- The reset state meets the invariant. -/
def Obligations.ResetMeetsInvariant : Prop := State.reset.Inv

/-- Every host input keeps the invariant, `reset(image)` from any state and with any image (70_reset_and_hazards.md section 1). -/
def Obligations.HostInputsKeepInvariant : Prop :=
  (∀ (image : List Byte) (s : State), (hostInput (.reset image) s).Inv) ∧
  (∀ s : State, s.Inv → (hostInput .start s).Inv)

/-! ### Encoding -/

/-- 30_encoding.md R63: the complete opcode map. Each listed byte selects its instruction, every other byte none. -/
def Obligations.DecodeFollowsTheOpcodeMap : Prop :=
  ∀ (b1 b2 : Byte) (rest : List Byte),
    decode (0b00000001#8 :: rest) = .ok (.hlt, rest) ∧
    decode (0b10000010#8 :: b1 :: b2 :: rest) = .ok (.ldi b1 b2, rest) ∧
    decode (0b01000111#8 :: b1 :: rest) = .ok (.prn b1, rest) ∧
    decode (0b10100010#8 :: b1 :: b2 :: rest) = .ok (.mul b1 b2, rest) ∧
    decode (0b10100000#8 :: b1 :: b2 :: rest) = .ok (.add b1 b2, rest) ∧
    decode (0b01000101#8 :: b1 :: rest) = .ok (.push b1, rest) ∧
    decode (0b01000110#8 :: b1 :: rest) = .ok (.pop b1, rest) ∧
    decode (0b01010000#8 :: b1 :: rest) = .ok (.call b1, rest) ∧
    decode (0b00010001#8 :: rest) = .ok (.ret, rest) ∧
    (∀ op, op ∉ listedOpcodes → decode (op :: rest) = .error (.unknownOpcode op))

/-- 30_encoding.md R64: the opcode byte alone decides how many bytes the decoder takes. -/
def Obligations.OpcodeByteAloneFixesLength : Prop :=
  ∀ (op : Byte) (r1 r2 rest1 rest2 : List Byte) (i j : Instr),
    decode (op :: r1) = .ok (i, rest1) → decode (op :: r2) = .ok (j, rest2) →
    (encode i).length = (encode j).length ∧
    (op :: r1).length = (encode i).length + rest1.length ∧ (op :: r2).length = (encode j).length + rest2.length

/-- Decode and encode agree in both directions, for every instruction with every operand byte, well-formed or not (30_encoding.md sections
1 to 4; that bytes above 7 decode is the spec's decision D5). -/
def Obligations.DecodeAndEncodeAgree : Prop :=
  (∀ (i : Instr) (rest : List Byte), decode (encode i ++ rest) = .ok (i, rest)) ∧
  (∀ (bytes rest : List Byte) (i : Instr), decode bytes = .ok (i, rest) → bytes = encode i ++ rest)

/-- A string of whole instructions disassembles to those instructions (30_encoding.md sections 1 and 5; decision D19, log entry 14). -/
def Obligations.DisassemblyUndoesEncoding : Prop :=
  ∀ is : List Instr, disassemble (is.flatMap encode) = is.map .instr

/-- Disassembly drops and adds no byte, illegal bytes and a cut-off last instruction included (30_encoding.md section 5; decision D19,
log entry 14). -/
def Obligations.DisassemblyKeepsEveryByte : Prop :=
  ∀ bytes : List Byte, (disassemble bytes).flatMap AsmItem.rawBytes = bytes

/-- The assembler encodes a well-formed instruction and refuses any other (30_encoding.md section 5; decision D19, log entry 14). -/
def Obligations.AssemblerRefusesBadRegisters : Prop :=
  ∀ i : Instr, assemble [.instr i] = if i.wellFormed = true then some (encode i) else none

/-- Facts about the opcode bytes: bits 7:6 count the operand bytes, bit 5 marks the ALU, bit 4 the two that set the pc; 247 bytes
are illegal, 0x00 among them (30_encoding.md sections 3 and 4, derived there; decision D13). -/
def Obligations.OpcodeByteFacts : Prop :=
  (∀ (b : Byte) (oc : Opcode), decodeOpcode b = some oc →
    b.toNat / 64 = oc.operandCount ∧ (b.getLsbD 5 = true ↔ oc = .mul ∨ oc = .add) ∧
    (b.getLsbD 4 = true ↔ oc = .call ∨ oc = .ret)) ∧
  ((List.range 256).filter (fun n => (decodeOpcode (BitVec.ofNat 8 n)).isNone)).length = 247 ∧
  decodeOpcode 0x00#8 = none

/-- Words written out from the encodings of 30_encoding.md section 3 decode to what they stand for. -/
def Obligations.WrittenOutWordsDecode : Prop :=
  decodeTableWord 8 0b00000001 = some .hlt ∧
  decodeTableWord 24 0b100000100000001111111111 = some (.ldi 3#8 255#8) ∧
  decodeTableWord 16 0b0100011100000111 = some (.prn 7#8) ∧
  decodeTableWord 24 0b101000000000000000000001 = some (.add 0#8 1#8) ∧
  decodeTableWord 16 0b0101000000000001 = some (.call 1#8) ∧
  decodeTableWord 8 0b10000011 = none

/-- An instruction is ill-formed exactly when its execution raises on a register operand (30_encoding.md sections 2 and 4, 40_engine.md
section 2; decision D5; that this is what well-formed means is log entry 9). -/
def Obligations.IllFormedExactlyWhenRegisterRaises : Prop :=
  ∀ (i : Instr) (s : State), s.status = .running →
    (i.wellFormed = false ↔
      ∃ b : Byte, 7 < b.toNat ∧ exec i s = .next { s with status := .faulted ⟨.outOfBounds .register b.toNat, s.pc⟩ })

/-! ### Instructions one after another -/

/-- What PUSH pushes, POP pops, and SP is restored, for every SP in 1..255 and any two registers (43_stack.md section 1, derived there).
Where the destination is R7 it holds the popped byte instead. -/
def Obligations.StackRoundTrip : Prop :=
  ∀ (s : State) (b c : Byte) (r q : RegIdx), s.mem.wf = true → b.toNat = r.val → c.toNat = q.val → s.sp ≠ 0#8 →
    ∃ t u, exec (.push b) s = .next t ∧ exec (.pop c) t = .next u ∧ u.reg q = s.reg r ∧
      (q ≠ Config.spIndex → u.sp = s.sp)

/-- A CALL goes to its target, and a RET in any later state with the SP the CALL left and the byte there intact returns to the byte
after the CALL and restores SP (44_call_return.md, derived there), for every register. -/
def Obligations.CallRetRoundTrip : Prop :=
  ∀ (s : State) (b : Byte) (r : RegIdx), s.mem.wf = true → b.toNat = r.val → s.pc ≤ 253 → s.sp ≠ 0#8 →
    ∃ t, exec (.call b) s = .next t ∧ t.pc = (s.reg r).toNat ∧
      ∀ u : State, u.sp = t.sp → u.mem.read u.sp.toNat = t.mem.read t.sp.toNat →
        ∃ v, exec .ret u = .next v ∧ v.pc = s.pc + 2 ∧ v.sp = s.sp

/-- PUSH followed by RET jumps to the register's value and leaves SP as it was (30_encoding.md section 5, derived there). -/
def Obligations.PushRetIsAComputedJump : Prop :=
  ∀ (s : State) (b : Byte) (r : RegIdx), s.mem.wf = true → b.toNat = r.val → s.sp ≠ 0#8 →
    ∃ t u, exec (.push b) s = .next t ∧ exec .ret t = .next u ∧ u.pc = (s.reg r).toNat ∧ u.sp = s.sp

/-- "LDI followed by PRN on the same register yields output equal to the loaded value" (41_halt_load_print.md). -/
def Obligations.LdiThenPrnEmitsTheValue : Prop :=
  ∀ (s : State) (b v : Byte) (r : RegIdx), b.toNat = r.val →
    ∃ t u, exec (.ldi b v) s = .next t ∧ exec (.prn b) t = .next u ∧ u.out = s.out ++ [v]

/-- A byte PUSH stores just after itself is what the next step fetches, with no fence; and a byte it stores over its own operand does
not change the PUSH itself (20_memory.md section 4, 40_engine.md section 2; the spec's decisions D9 and D14). -/
def Obligations.NextFetchSeesTheStoredByte : Prop :=
  ∀ (s : State) (r : RegIdx), s.mem.wf = true → s.status = .running → s.mem.read s.pc = 0x45#8 →
    (s.mem.read (s.pc + 1)).toNat = r.val →
    (s.sp.toNat = s.pc + 3 →
      ∃ t, step s = .next t ∧ t.pc = s.pc + 2 ∧ t.bytesFromPc.head? = some (s.reg r) ∧
        (decodeOpcode (s.reg r) = none →
          step t = .next { t with status := .faulted ⟨.unknownOpcode (s.reg r), s.pc + 2⟩ }) ∧
        (s.reg r = 0x01#8 → step t = .next { t with status := .halted })) ∧
    (s.sp.toNat = s.pc + 2 →
      ∃ t, step s = .next t ∧ t.status = .running ∧ t.pc = s.pc + 2 ∧ t.mem.read (s.pc + 1) = s.reg r)

/-! ### ALU, memory, reset and runs -/

/-- The ALU knows ADD and MUL, exact results reduced mod 256, and raises `UnsupportedOperation` for any other name (42_alu.md sections 1
and 3; the spec's decisions D1 and D27; that the name is the opcode byte is log entry 16). -/
def Obligations.AluKnowsAddAndMulOnly : Prop :=
  ∀ op va vb : Byte,
    (op = 0xA0#8 → ∃ v, aluResult op va vb = .ok v ∧ v.toNat = (va.toNat + vb.toNat) % 256) ∧
    (op = 0xA2#8 → ∃ v, aluResult op va vb = .ok v ∧ v.toNat = (va.toNat * vb.toNat) % 256) ∧
    (op ≠ 0xA0#8 → op ≠ 0xA2#8 → aluResult op va vb = .error (.unsupportedOperation op))

/-- A read returns the value of the latest write to its cell, or the reset value if there was none (20_memory.md section 4). -/
def Obligations.ReadReturnsTheLatestWrite : Prop :=
  ∀ (writes : List Host.Cell) (a : Nat), (∀ w ∈ writes, w.1 < 256) →
    (writes.foldl (fun m w => Memory.write m w.1 w.2) State.reset.mem).read a =
      ((writes.reverse.find? (fun w => w.1 == a)).map (·.2)).getD 0x00#8

/-- Canonical memories that read alike at every address are equal data (log entry 6). -/
def Obligations.EqualReadsMeanEqualMemory : Prop :=
  ∀ m m' : Memory, m.wf = true → m'.wf = true → (∀ a, m.read a = m'.read a) → m = m'

/-- The state after reset, field by field (10_state.md section 6; SP and R0..R6 are the spec's decisions D2 and D3, log entry 12). -/
def Obligations.ResetState : Prop :=
  State.reset.sp = 0xF4#8 ∧ (∀ j, j ≠ Config.spIndex → State.reset.reg j = 0x00#8) ∧ State.reset.pc = 0 ∧
  (∀ a, State.reset.mem.read a = 0x00#8) ∧ State.reset.status = .halted ∧ State.reset.out = []

/-- `reset(image)` from any state places the image at address 0 with zeros after it, or loads nothing and faults if it is longer than
256 bytes; every other field is as after reset (70_reset_and_hazards.md section 1, the spec's decisions D16 and D26). -/
def Obligations.ResetPlacesTheImageOrNothing : Prop :=
  ∀ (image : List Byte) (s : State),
    (hostInput (.reset image) s).x = State.reset.x ∧ (hostInput (.reset image) s).pc = 0 ∧
    (hostInput (.reset image) s).out = [] ∧
    (image.length ≤ 256 → (hostInput (.reset image) s).status = .halted ∧
      ∀ a, (hostInput (.reset image) s).mem.read a = image.getD a 0x00#8) ∧
    (256 < image.length → (hostInput (.reset image) s).status = .faulted ⟨.outOfBounds .load 256, 0⟩ ∧
      ∀ a, (hostInput (.reset image) s).mem.read a = 0x00#8)

/-- An empty image is legal, and its first step raises `UnknownOpcode(0x00)` at 0 (70_reset_and_hazards.md section 1, derived there). -/
def Obligations.EmptyImageRaisesAtZero : Prop :=
  step (start (resetImage [])) =
    .next { start (resetImage []) with status := .faulted ⟨.unknownOpcode 0x00#8, 0⟩ }

/-- The host reads the current status and all values sent so far in every status, `Running` included. A step only adds to the values
it can read, and once the status it reads is not `Running` the machine makes no step until the host acts
(70_reset_and_hazards.md section 4, the spec's decision D17). -/
def Obligations.HostReadsStatusAndOutAtAnyTime : Prop :=
  (∀ s : State, s.hostView.status = s.status ∧ s.hostView.out = s.out) ∧
  (∀ s t : State, event .step s = some t → ∃ sent, t.hostView.out = s.hostView.out ++ sent) ∧
  (∀ s : State, s.hostView.status ≠ .running → event .step s = none)

/-- A run that has ended takes no further step: more fuel changes nothing, and fuel that runs out leaves it `Running`, a run with no
observation yet (40_engine.md section 1, 00_scope.md section 5, the spec's decision D20; log entry 15). -/
def Obligations.EndedRunsStayEnded : Prop :=
  (∀ (n m : Nat) (s : State), (run n s).status ≠ .running → run (n + m) s = run n s) ∧
  (∀ s : State, s.observe = none ↔ s.status = .running)
end

