-- ==== Sys2Proof/Laws/State.lean ====
section
/-! SUPPORT. What each state update leaves in each field: one lemma per field per update, so that no proof unfolds a record update. -/

namespace Sys2Proof.Machine

variable (s : State) (i j : RegIdx) (v : Byte) (n a : Nat) (st : Status) (e : Error)

theorem State.sp_eq_reg : s.sp = s.reg Config.spIndex := rfl

/-- Register read after register write (10_state.md R23). -/
@[simp] theorem State.reg_setReg : (s.setReg i v).reg j = if j = i then v else s.reg j := by
  simp [State.reg, State.setReg, Vector.getElem_set, Fin.ext_iff, eq_comm]

theorem State.reg_setReg_same : (s.setReg i v).reg i = v := by simp

theorem State.reg_setReg_ne (h : j ≠ i) : (s.setReg i v).reg j = s.reg j := by simp [h]

@[simp] theorem State.sp_setReg : (s.setReg i v).sp = if Config.spIndex = i then v else s.sp := State.reg_setReg s i _ v
@[simp] theorem State.pc_setReg : (s.setReg i v).pc = s.pc := rfl
@[simp] theorem State.mem_setReg : (s.setReg i v).mem = s.mem := rfl
@[simp] theorem State.status_setReg : (s.setReg i v).status = s.status := rfl
@[simp] theorem State.out_setReg : (s.setReg i v).out = s.out := rfl

@[simp] theorem State.x_setPc : (s.setPc n).x = s.x := rfl
@[simp] theorem State.reg_setPc : (s.setPc n).reg i = s.reg i := rfl
@[simp] theorem State.sp_setPc : (s.setPc n).sp = s.sp := rfl
@[simp] theorem State.pc_setPc : (s.setPc n).pc = n := rfl
@[simp] theorem State.mem_setPc : (s.setPc n).mem = s.mem := rfl
@[simp] theorem State.status_setPc : (s.setPc n).status = s.status := rfl
@[simp] theorem State.out_setPc : (s.setPc n).out = s.out := rfl

@[simp] theorem State.x_advance : (s.advance n).x = s.x := rfl
@[simp] theorem State.reg_advance : (s.advance n).reg i = s.reg i := rfl
@[simp] theorem State.sp_advance : (s.advance n).sp = s.sp := rfl
@[simp] theorem State.pc_advance : (s.advance n).pc = s.pc + n := rfl
@[simp] theorem State.mem_advance : (s.advance n).mem = s.mem := rfl
@[simp] theorem State.status_advance : (s.advance n).status = s.status := rfl
@[simp] theorem State.out_advance : (s.advance n).out = s.out := rfl

@[simp] theorem State.x_setStatus : (s.setStatus st).x = s.x := rfl
@[simp] theorem State.reg_setStatus : (s.setStatus st).reg i = s.reg i := rfl
@[simp] theorem State.sp_setStatus : (s.setStatus st).sp = s.sp := rfl
@[simp] theorem State.pc_setStatus : (s.setStatus st).pc = s.pc := rfl
@[simp] theorem State.mem_setStatus : (s.setStatus st).mem = s.mem := rfl
@[simp] theorem State.status_setStatus : (s.setStatus st).status = st := rfl
@[simp] theorem State.out_setStatus : (s.setStatus st).out = s.out := rfl

@[simp] theorem State.x_emit : (s.emit v).x = s.x := rfl
@[simp] theorem State.reg_emit : (s.emit v).reg i = s.reg i := rfl
@[simp] theorem State.sp_emit : (s.emit v).sp = s.sp := rfl
@[simp] theorem State.pc_emit : (s.emit v).pc = s.pc := rfl
@[simp] theorem State.mem_emit : (s.emit v).mem = s.mem := rfl
@[simp] theorem State.status_emit : (s.emit v).status = s.status := rfl
@[simp] theorem State.out_emit : (s.emit v).out = s.out ++ [v] := rfl

@[simp] theorem State.x_memWrite : (s.memWrite a v).x = s.x := rfl
@[simp] theorem State.reg_memWrite : (s.memWrite a v).reg i = s.reg i := rfl
@[simp] theorem State.sp_memWrite : (s.memWrite a v).sp = s.sp := rfl
@[simp] theorem State.pc_memWrite : (s.memWrite a v).pc = s.pc := rfl
@[simp] theorem State.mem_memWrite : (s.memWrite a v).mem = s.mem.write a v := rfl
@[simp] theorem State.status_memWrite : (s.memWrite a v).status = s.status := rfl
@[simp] theorem State.out_memWrite : (s.memWrite a v).out = s.out := rfl

@[simp] theorem State.x_raise : (s.raise e).x = s.x := rfl
@[simp] theorem State.reg_raise : (s.raise e).reg i = s.reg i := rfl
@[simp] theorem State.sp_raise : (s.raise e).sp = s.sp := rfl
@[simp] theorem State.pc_raise : (s.raise e).pc = s.pc := rfl
@[simp] theorem State.mem_raise : (s.raise e).mem = s.mem := rfl
@[simp] theorem State.status_raise : (s.raise e).status = .faulted ⟨e, s.pc⟩ := rfl
@[simp] theorem State.out_raise : (s.raise e).out = s.out := rfl

@[simp] theorem State.memRead_eq : s.memRead a = s.mem.read a := rfl

end Sys2Proof.Machine
end

