-- ==== Sys2Proof/Laws/Ops.lean ====
section
/-! SUPPORT. One lemma per shared operation that says once everything it can do; proofs cite these instead of unfolding. -/

namespace Sys2Proof.Machine

/-- `regidx` on a byte that names a register. -/
theorem regIdx_ok {b : Byte} {r : RegIdx} (h : b.toNat = r.val) : regIdx b = .ok r := by
  simp [regIdx, h]

/-- `regidx` on a byte that names none. -/
theorem regIdx_error {b : Byte} (h : 7 < b.toNat) : regIdx b = .error (.outOfBounds .register b.toNat) := by
  have hb : ¬ b.toNat < 8 := by omega
  simp [regIdx, hb]

/-- Everything `regidx` can do. -/
theorem regIdx_cases (b : Byte) :
    (∃ r : RegIdx, b.toNat = r.val ∧ regIdx b = .ok r) ∨
    (7 < b.toNat ∧ regIdx b = .error (.outOfBounds .register b.toNat)) := by
  by_cases h : b.toNat < 8
  · exact .inl ⟨⟨b.toNat, h⟩, rfl, regIdx_ok rfl⟩
  · exact .inr ⟨by omega, regIdx_error (by omega)⟩

/-- Everything `finish` can do. -/
@[simp] theorem finish_ok (s t : State) : finish s (.ok t) = .next t := rfl
@[simp] theorem finish_error (s : State) (e : Error) : finish s (.error e) = .next (s.raise e) := rfl

/-- `finish` always answers a next state: no meaning ends in a fault or a refusal. -/
theorem finish_next (s : State) (r : Except Error State) : ∃ t, finish s r = .next t := by
  cases r with
  | ok t => exact ⟨t, rfl⟩
  | error e => exact ⟨s.raise e, rfl⟩

/-- A stack address is one that exists. -/
theorem State.pushAddress_lt (s : State) : s.pushAddress < Config.memSize := by
  have := s.sp.isLt
  simp only [State.pushAddress, Config.memSize]
  omega

/-- `pushValue` with SP above 0. -/
theorem pushValue_ok {s : State} (v : Byte) (h : s.sp ≠ 0#8) :
    pushValue v s = .ok ((s.setReg Config.spIndex (s.sp - 1#8)).memWrite s.pushAddress v) := by
  simp [pushValue, h]

/-- `pushValue` with SP at 0. -/
theorem pushValue_error {s : State} (v : Byte) (h : s.sp = 0#8) :
    pushValue v s = .error (.outOfBounds .spDecrement (-1)) := by
  simp [pushValue, h]

/-- `popValue` with SP below 255. -/
theorem popValue_ok {s : State} (h : s.sp ≠ 255#8) :
    popValue s = .ok (s.mem.read s.sp.toNat, s.setReg Config.spIndex (s.sp + 1#8)) := by
  simp [popValue, h]

/-- `popValue` with SP at 255. -/
theorem popValue_error {s : State} (h : s.sp = 255#8) : popValue s = .error (.outOfBounds .spIncrement 256) := by
  simp [popValue, h]

/-- The decremented SP as an integer. -/
theorem sp_sub_one_toNat {v : Byte} (h : v ≠ 0#8) : (v - 1#8).toNat = v.toNat - 1 := by
  have h0 : v.toNat ≠ 0 := fun hz => h (BitVec.eq_of_toNat_eq (by simpa using hz))
  have := v.isLt
  rw [BitVec.toNat_sub]
  simp
  omega

/-- The incremented SP as an integer. -/
theorem sp_add_one_toNat {v : Byte} (h : v ≠ 255#8) : (v + 1#8).toNat = v.toNat + 1 := by
  have h0 : v.toNat ≠ 255 := fun hz => h (BitVec.eq_of_toNat_eq (by simpa using hz))
  have := v.isLt
  rw [BitVec.toNat_add]
  simp
  omega

/-- Everything `returnAddress` can do. -/
theorem returnAddress_ok {ra : Nat} (h : ra ≤ 255) : returnAddress ra = .ok (BitVec.ofNat 8 ra) := by
  have : ¬ ra > 255 := by omega
  simp [returnAddress, this]

theorem returnAddress_error {ra : Nat} (h : 255 < ra) : returnAddress ra = .error (.outOfBounds .returnAddress ra) := by
  simp [returnAddress, h]

/-- The two named ALU results. -/
theorem aluResult_add (va vb : Byte) : aluResult 0xA0#8 va vb = .ok (BitVec.ofNat 8 (va.toNat + vb.toNat)) := rfl
theorem aluResult_mul (va vb : Byte) : aluResult 0xA2#8 va vb = .ok (BitVec.ofNat 8 (va.toNat * vb.toNat)) := rfl

/-- Everything the shared body of MUL and ADD can do. -/
theorem aluInstr_cases (op b1 b2 : Byte) (s : State) :
    (∃ e, aluInstr op b1 b2 s = .next (s.raise e)) ∨
    (∃ (a b : RegIdx) (v : Byte), b1.toNat = a.val ∧ b2.toNat = b.val ∧ aluResult op (s.reg a) (s.reg b) = .ok v ∧
      aluInstr op b1 b2 s = .next ((s.setReg a v).advance 3)) := by
  obtain ⟨a, ha, ha'⟩ | ⟨_, h⟩ := regIdx_cases b1
  · obtain ⟨b, hb, hb'⟩ | ⟨_, h⟩ := regIdx_cases b2
    · cases hv : aluResult op (s.reg a) (s.reg b) with
      | error e => exact .inl ⟨e, by simp only [aluInstr, alu, ha', hb', hv, bind, Except.bind, finish_error]⟩
      | ok v => exact .inr ⟨a, b, v, ha, hb, hv, by simp only [aluInstr, alu, ha', hb', hv, bind, Except.bind]; rfl⟩
    · exact .inl ⟨_, by simp only [aluInstr, ha', h, bind, Except.bind]; rfl⟩
  · exact .inl ⟨_, by simp only [aluInstr, h, bind, Except.bind]; rfl⟩

/-- The host reads the two ports and nothing else. -/
@[simp] theorem State.status_hostView (s : State) : s.hostView.status = s.status := rfl
@[simp] theorem State.out_hostView (s : State) : s.hostView.out = s.out := rfl

/-- A load keeps the canonical form. -/
theorem load_mem_wf {image : List Byte} {s : State} (h : s.mem.wf = true) : (load image s).mem.wf = true := by
  unfold load
  split
  · exact h
  · exact Memory.writeBytes_wf _ h (by simp only [Config.loadBase]; omega)

end Sys2Proof.Machine
end

