-- ==== Sys2Proof/Laws/Fetch.lean ====
section
/-! SUPPORT. What the fetch and the step do, by the status and the bytes at the pc. -/

namespace Sys2Proof.Machine

/-- Past the last cell the decoder is shown no byte. -/
theorem State.bytesFromPc_nil {s : State} (h : 255 < s.pc) : s.bytesFromPc = [] := by
  have : Config.memSize - s.pc = 0 := by simp only [Config.memSize]; omega
  simp [State.bytesFromPc, this]

/-- The decoder is shown the byte at the pc, then what lies after it. -/
theorem State.bytesFromPc_cons {s : State} (h : s.pc ≤ 255) :
    s.bytesFromPc = s.mem.read s.pc :: (s.advance 1).bytesFromPc := by
  have hn : Config.memSize - s.pc = (Config.memSize - (s.pc + 1)) + 1 := by simp only [Config.memSize]; omega
  simp only [State.bytesFromPc, hn, List.range'_succ, List.map_cons, State.memRead_eq, State.pc_advance]
  rfl

/-- An operand byte that has a cell. -/
theorem operandFetch_ok {s : State} {k : Nat} (h : s.pc + k ≤ 255) : operandFetch s k = .ok (s.mem.read (s.pc + k)) := by
  have : ¬ s.pc + k > 255 := by omega
  simp only [operandFetch, this, if_false, State.memRead_eq]

/-- An operand byte that has none. -/
theorem operandFetch_error {s : State} {k : Nat} (h : 255 < s.pc + k) :
    operandFetch s k = .error (.outOfBounds .operand (s.pc + k : Nat)) := by
  simp only [operandFetch, gt_iff_lt, h, if_true]

theorem step_halted {s : State} (h : s.status = .halted) : step s = .fault .halted := by simp [step, h]

theorem step_faulted {s : State} {e : FaultRecord} (h : s.status = .faulted e) : step s = .fault (.faulted e) := by
  simp [step, h]

/-- A running step whose fetch succeeds is the execution of the fetched instruction. -/
theorem step_of_fetch {s : State} {i : Instr} (h : s.status = .running) (hf : fetchInstr s = .ok i) : step s = exec i s := by
  simp [step, h, hf]

/-- A running step whose fetch raises takes fault entry. -/
theorem step_of_fetch_error {s : State} {e : Error} (h : s.status = .running) (hf : fetchInstr s = .error e) :
    step s = .next (s.raise e) := by
  simp [step, h, hf]

end Sys2Proof.Machine
end

