-- ==== Sys2Proof/Laws/PerInstr.lean ====
section
/-! SUPPORT. The family EncodedLength: an encoding begins with an opcode byte of the map and has the length the map gives it. -/

namespace Sys2Proof.Laws.EncodedLength

/-- The first byte of the encoding is a listed opcode, whose length is the encoding's (spec/30_encoding.md R63, R64). -/
def Statement (i : Instr) : Prop :=
  ∃ oc, (encode i).head?.bind decodeOpcode = some oc ∧ (encode i).length = oc.length

theorem hlt : Statement .hlt := ⟨.hlt, rfl, rfl⟩
theorem ldi (regNum value : Byte) : Statement (.ldi regNum value) := ⟨.ldi, rfl, rfl⟩
theorem prn (regNum : Byte) : Statement (.prn regNum) := ⟨.prn, rfl, rfl⟩
theorem mul (regA regB : Byte) : Statement (.mul regA regB) := ⟨.mul, rfl, rfl⟩
theorem add (regA regB : Byte) : Statement (.add regA regB) := ⟨.add, rfl, rfl⟩
theorem push (regNum : Byte) : Statement (.push regNum) := ⟨.push, rfl, rfl⟩
theorem pop (regNum : Byte) : Statement (.pop regNum) := ⟨.pop, rfl, rfl⟩
theorem call (regNum : Byte) : Statement (.call regNum) := ⟨.call, rfl, rfl⟩
theorem ret : Statement .ret := ⟨.ret, rfl, rfl⟩

end Sys2Proof.Laws.EncodedLength
end

