-- ==== Sys2Proof/Tests/Slice0.lean ====
section
/-! SUPPORT. The model's own tests. Expected results come from spec/95_test_vectors.md (the vector is named in the comment) and from the
encodings of spec/30_encoding.md; the witnesses show that the hypotheses of each obligation can be met, clause by clause. -/

namespace Sys2Proof.Tests

open Sys2Proof Sys2Proof.Machine

/-- A small state: R0 = 0x2A, R1 = 0x40, Rn = n, the given SP. -/
def st (pc : Nat) (sp : Byte) (mem : Memory) (status : Status := .running) : State where
  x := #v[0x2A#8, 0x40#8, 2#8, 3#8, 4#8, 5#8, 6#8, sp]
  pc := pc
  mem := mem
  status := status
  out := [9#8]

/-- The same state with two registers of one's own. -/
def st2 (r0 r1 : Byte) (mem : Memory) : State := ((st 0 0xF4#8 mem).setReg 0 r0).setReg 1 r1

def nextOf : StepResult → Option State
  | .next t => some t
  | .fault _ => none
  | .refused _ => none

/-- One step, and a field of the state after it. -/
def after {α : Type} (f : State → α) (s : State) : Option α := (nextOf (step s)).map f

/-- One step that must end in `Faulted` with this error at this pc and change nothing else. -/
def raises (s : State) (e : Error) : Bool :=
  decide (nextOf (step s) = some { s with status := .faulted ⟨e, s.pc⟩ })

/-! ### WellFormed: each check refuses its ill-formed term -/

theorem test_wf_ldi : (Instr.ldi 8#8 0#8).wellFormed = false := by decide
theorem test_wf_prn : (Instr.prn 8#8).wellFormed = false := by decide
theorem test_wf_mul_a : (Instr.mul 8#8 0#8).wellFormed = false := by decide
theorem test_wf_mul_b : (Instr.mul 0#8 255#8).wellFormed = false := by decide
theorem test_wf_add_a : (Instr.add 8#8 0#8).wellFormed = false := by decide
theorem test_wf_add_b : (Instr.add 0#8 8#8).wellFormed = false := by decide
theorem test_wf_push : (Instr.push 8#8).wellFormed = false := by decide
theorem test_wf_pop : (Instr.pop 8#8).wellFormed = false := by decide
theorem test_wf_call : (Instr.call 8#8).wellFormed = false := by decide
theorem test_wf_accepts : (Instr.ldi 7#8 255#8).wellFormed && (Instr.mul 7#8 0#8).wellFormed && Instr.ret.wellFormed = true := by
  decide

/-! ### Decoding: words written out bit by bit from 30_encoding.md R61 and R63 -/

theorem test_decode_hlt : decodeTableWord 8 0b00000001 = some .hlt := by decide
theorem test_decode_ldi : decodeTableWord 24 0b10000010_00000011_11111111 = some (.ldi 3#8 255#8) := by decide
theorem test_decode_prn : decodeTableWord 16 0b01000111_00000111 = some (.prn 7#8) := by decide
theorem test_decode_mul : decodeTableWord 24 0b10100010_00000000_00000001 = some (.mul 0#8 1#8) := by decide
theorem test_decode_add : decodeTableWord 24 0b10100000_00000000_00000001 = some (.add 0#8 1#8) := by decide
theorem test_decode_push : decodeTableWord 16 0b01000101_00001000 = some (.push 8#8) := by decide
theorem test_decode_pop : decodeTableWord 16 0b01000110_00000001 = some (.pop 1#8) := by decide
theorem test_decode_call : decodeTableWord 16 0b01010000_00000001 = some (.call 1#8) := by decide
theorem test_decode_ret : decodeTableWord 8 0b00010001 = some .ret := by decide
/-- Every other opcode byte is rejected (R66). -/
theorem test_decode_rejects : decodeTableWord 8 0b00000000 = none ∧ decodeTableWord 24 0b10000011_00000000_00000000 = none := by
  decide
/-- The examples of R70's table and R72. -/
theorem test_disassemble : disassemble [0x82#8, 0x00#8, 0x08#8, 0x05#8, 0x01#8] =
    [.instr (.ldi 0#8 8#8), .byte 5#8, .instr .hlt] := by decide
/-- Program P4's labelled subroutine, its first and last lines (95_test_vectors.md). -/
theorem test_assemble_label : assemble [.ldiLabel 1#8 "sub", .instr .hlt, .label "sub", .instr .ret] =
    some [0x82#8, 0x01#8, 0x04#8, 0x01#8, 0x11#8] := by decide

/-- The word placed at the pc of the reset state is what the next step runs. -/
theorem test_withFetchWord : fetchInstr (State.reset.withFetchWord 24 0x820307) = .ok (.ldi 3#8 7#8) := rfl
theorem test_withFetchWord_runs : after (·.reg 3) (State.reset.withFetchWord 24 0x820307) = some 7#8 := by decide

/-! ### One step each, from the vectors -/

/-- V1. -/
theorem test_hlt : after (fun t => (t.status, t.pc)) (st 5 0xF4#8 [(5, 0x01#8)]) = some (.halted, 5) := by decide
/-- V5. -/
theorem test_ldi : after (fun t => (t.reg 3, t.pc)) (st 0 0xF4#8 [(0, 0x82#8), (1, 3#8), (2, 0xFF#8)]) = some (0xFF#8, 3) := by decide
/-- V8. -/
theorem test_ldi_at_top : after (fun t => (t.reg 0, t.pc)) (st 0xFD 0xF4#8 [(0xFD, 0x82#8), (0xFF, 7#8)]) = some (7#8, 256) := by decide
/-- V12. -/
theorem test_prn_sp : after (fun t => (t.out, t.pc)) (st 0 0xF4#8 [(0, 0x47#8), (1, 7#8)]) = some ([9#8, 244#8], 2) := by decide
/-- V19. -/
theorem test_mul_wraps : after (fun t => (t.reg 0, t.reg 1)) (st2 20#8 13#8 [(0, 0xA2#8), (2, 1#8)]) = some (4#8, 13#8) := by decide
/-- V24. -/
theorem test_mul_sp : after (·.sp) (st 0 0xF4#8 [(0, 0xA2#8), (1, 7#8), (2, 2#8)]) = some 0xE8#8 := by decide
/-- V27. -/
theorem test_add_wraps : after (fun t => (t.reg 0, t.reg 1)) (st2 200#8 100#8 [(0, 0xA0#8), (2, 1#8)]) = some (44#8, 100#8) := by decide
/-- V28. -/
theorem test_add_same : after (fun t => (t.reg 0, t.pc)) (st2 0x80#8 1#8 [(0, 0xA0#8)]) = some (0#8, 3) := by decide
/-- V34. -/
theorem test_push_sp : after (fun t => (t.sp, t.mem.read 0xF3)) (st 0 0xF4#8 [(0, 0x45#8), (1, 7#8)]) = some (0xF3#8, 0xF4#8) := by decide
/-- V35: the last push that fits, at address 0. -/
theorem test_push_bottom : after (fun t => (t.sp, t.mem.read 0, t.pc)) (st 0x10 1#8 [(0x10, 0x45#8)]) = some (0#8, 0x2A#8, 0x12) := by decide
/-- V38. -/
theorem test_pop : after (fun t => (t.reg 1, t.sp, t.mem.read 0xF3)) (st 0 0xF3#8 [(0, 0x46#8), (1, 1#8), (0xF3, 0x2A#8)]) =
    some (0x2A#8, 0xF4#8, 0x2A#8) := by decide
/-- V40. -/
theorem test_pop_sp : after (·.sp) (st 0 0xF3#8 [(0, 0x46#8), (1, 7#8), (0xF3, 0x2A#8)]) = some 0x2A#8 := by decide
/-- V44. -/
theorem test_call : after (fun t => (t.pc, t.sp, t.mem.read 0xF3)) (st 0x10 0xF4#8 [(0x10, 0x50#8), (0x11, 1#8)]) =
    some (0x40, 0xF3#8, 0x12#8) := by decide
/-- V45. -/
theorem test_call_sp : after (·.pc) (st 0x10 0xF4#8 [(0x10, 0x50#8), (0x11, 7#8)]) = some 0xF4 := by decide
/-- V51. -/
theorem test_ret : after (fun t => (t.pc, t.sp)) (st 0x40 0xF3#8 [(0x40, 0x11#8), (0xF3, 0x12#8)]) = some (0x12, 0xF4#8) := by decide

/-! ### Faults and their order, from the vectors -/

/-- V6, V9 and V10. -/
theorem test_ldi_faults :
    raises (st 0 0xF4#8 [(0, 0x82#8), (1, 8#8), (2, 5#8)]) (.outOfBounds .register 8) &&
    raises (st 0xFE 0xF4#8 [(0xFE, 0x82#8), (0xFF, 9#8)]) (.outOfBounds .operand 256) &&
    raises (st 0xFF 0xF4#8 [(0xFF, 0x82#8)]) (.outOfBounds .operand 256) = true := by decide
/-- V23 and V22. -/
theorem test_mul_faults :
    raises (st 0 0xF4#8 [(0, 0xA2#8), (1, 9#8), (2, 0xA#8)]) (.outOfBounds .register 9) &&
    raises (st 0 0xF4#8 [(0, 0xA2#8), (2, 8#8)]) (.outOfBounds .register 8) = true := by decide
/-- V36, V37 and V41. -/
theorem test_stack_faults :
    raises (st 0x10 0#8 [(0x10, 0x45#8)]) (.outOfBounds .spDecrement (-1)) &&
    raises (st 0x10 0#8 [(0x10, 0x45#8), (0x11, 8#8)]) (.outOfBounds .register 8) &&
    raises (st 0 0xFF#8 [(0, 0x46#8)]) (.outOfBounds .spIncrement 256) = true := by decide
/-- V46, V48, V49 and V52. -/
theorem test_call_ret_faults :
    raises (st 0xFE 0xF4#8 [(0xFE, 0x50#8)]) (.outOfBounds .returnAddress 256) &&
    raises (st 0xFE 0#8 [(0xFE, 0x50#8)]) (.outOfBounds .returnAddress 256) &&
    raises (st 0xFF 0#8 [(0xFF, 0x50#8)]) (.outOfBounds .operand 256) &&
    raises (st 0x40 0xFF#8 [(0x40, 0x11#8)]) (.outOfBounds .spIncrement 256) = true := by decide
/-- V55, V57 and V58. -/
theorem test_fetch_faults :
    raises (st 6 0xF4#8 []) (.unknownOpcode 0#8) && raises (st 6 0xF4#8 [(6, 0x83#8)]) (.unknownOpcode 0x83#8) &&
    raises (st 256 0xF4#8 []) (.outOfBounds .fetch 256) = true := by decide
/-- The codes of 60_exceptions.md R180 and R181. -/
theorem test_codes : (Error.unknownOpcode 0#8).code = 1 ∧ (Error.outOfBounds .load 256).code = 2 ∧
    (Error.unsupportedOperation 0#8).code = 3 ∧ BoundsKind.fetch.code = 0 ∧ BoundsKind.load.code = 6 := by decide
/-- V62 and V64, in small. -/
theorem test_reset_image : (resetImage [0x82#8, 0#8, 8#8]).mem = [(0, 0x82#8), (2, 8#8)] ∧ (resetImage [1#8]).status = .halted := by decide
theorem test_reset_too_long : (resetImage (List.replicate 257 1#8)).status = .faulted ⟨.outOfBounds .load 256, 0⟩ ∧
    (resetImage (List.replicate 257 1#8)).mem = [] := by
  have h : (List.replicate 257 1#8).length > Config.memSize := by rw [List.length_replicate]; decide
  exact ⟨by rw [resetImage, load, if_pos h]; rfl, by rw [resetImage, load, if_pos h]; rfl⟩
/-- V59 and V60. -/
theorem test_start_ignored :
    start (st 0 0#8 [] (.faulted ⟨.unknownOpcode 0#8, 0⟩)) = st 0 0#8 [] (.faulted ⟨.unknownOpcode 0#8, 0⟩) ∧
    start (st 0 0#8 []) = st 0 0#8 [] := by decide

/-! ### Witnesses: states and operands that meet the hypotheses of the obligations, clause by clause -/

theorem witness_HltHaltsInPlace :
    let s := st 255 0xF4#8 [(255, 0x01#8)]
    s.status = .running ∧ s.pc ≤ 255 ∧ s.mem.read s.pc = 0x01#8 := by decide

theorem witness_LdiLoadsImmediate_register : (7#8 : Byte).toNat = (7 : RegIdx).val ∧ (7 : RegIdx) = Config.spIndex ∧ (7 : RegIdx) ≠ 0 := by
  decide
theorem witness_LdiLoadsImmediate_raise : 7 < (8#8 : Byte).toNat := by decide
theorem witness_LdiLoadsImmediate_step :
    let s := st 253 0xF4#8 [(253, 0x82#8), (254, 7#8)]
    s.status = .running ∧ s.mem.read s.pc = 0x82#8 ∧ s.pc ≤ 253 ∧ s.pc = 253 ∧ s.mem.read 254 = 7#8 ∧
      s.mem.read (s.pc + 1) = 7#8 ∧ s.mem.read (s.pc + 2) = 0#8 ∧ (7#8 : Byte).toNat ≤ 7 := by decide
theorem witness_LdiLoadsImmediate_operand :
    let s := st 254 0xF4#8 [(254, 0x82#8)]
    let u := st 255 0xF4#8 [(255, 0x82#8)]
    (s.status = .running ∧ s.mem.read s.pc = 0x82#8 ∧ s.pc = 254) ∧ (u.status = .running ∧ u.mem.read u.pc = 0x82#8 ∧ u.pc = 255) := by
  decide

/-- For PrnEmitsOneValue and LdiThenPrnEmitsTheValue. -/
theorem witness_PrnEmitsOneValue : (7#8 : Byte).toNat = (7 : RegIdx).val := by decide
/-- For MulMultipliesModulo256 and AddAddsModulo256; the two operands may be one register. -/
theorem witness_MulMultipliesModulo256 : (7#8 : Byte).toNat = (7 : RegIdx).val ∧ (0#8 : Byte).toNat = (0 : RegIdx).val ∧ (0 : RegIdx) ≠ 7 := by
  decide
/-- For PushStoresBelowStackPointer, PushRetIsAComputedJump and, with two registers, StackRoundTrip: the last SP a push fits at. -/
theorem witness_PushStoresBelowStackPointer :
    let s := st 0 1#8 [(0, 0x45#8)]
    s.mem.wf = true ∧ (7#8 : Byte).toNat = (7 : RegIdx).val ∧ (0#8 : Byte).toNat = (0 : RegIdx).val ∧ s.sp ≠ 0#8 ∧
      (0 : RegIdx) ≠ Config.spIndex := by decide
theorem witness_PopLoadsThenWritesDestination :
    (7#8 : Byte).toNat = (7 : RegIdx).val ∧ (0 : RegIdx) ≠ Config.spIndex ∧ (st 0 254#8 []).sp ≠ 255#8 := by decide
/-- For CallPushesReturnAddress and the first part of CallRetRoundTrip. -/
theorem witness_CallPushesReturnAddress :
    let s := st 253 1#8 [(253, 0x50#8)]
    s.mem.wf = true ∧ (7#8 : Byte).toNat = (7 : RegIdx).val ∧ s.pc ≤ 253 ∧ s.sp ≠ 0#8 := by decide
theorem witness_CallRetRoundTrip :
    let s := st 253 1#8 [(253, 0x50#8)]
    let u := st 0x40 0#8 [(0, 255#8)]
    ∃ t, exec (.call 1#8) s = .next t ∧ u.sp = t.sp ∧ u.mem.read u.sp.toNat = t.mem.read t.sp.toNat :=
  ⟨_, rfl, by decide, by decide⟩
theorem witness_RetPopsProgramCounter : (st 0 254#8 []).sp ≠ 255#8 := by decide

theorem witness_RegisterByteAboveSevenRaises : 7 < (8#8 : Byte).toNat ∧ (7#8 : Byte).toNat ≤ 7 := by decide
theorem witness_StackPointerLimitsRaise :
    (7#8 : Byte).toNat ≤ 7 ∧ (st 253 0#8 []).sp = 0#8 ∧ (st 253 0#8 []).pc ≤ 253 ∧ (st 0 255#8 []).sp = 255#8 := by decide
theorem witness_CallAtTheTopRaisesReturnAddress : (7#8 : Byte).toNat ≤ 7 ∧ (st 254 0#8 []).pc = 254 := by decide

theorem witness_StepRunsTheDecodedInstruction :
    let s := st 254 0xF4#8 [(254, 0x47#8), (255, 7#8)]
    s.status = .running ∧ decode s.bytesFromPc = .ok (.prn 7#8, []) := ⟨rfl, rfl⟩
theorem witness_StepRaisesWhereNothingDecodes :
    let s := st 256 0xF4#8 []
    let u := st 255 0xF4#8 [(255, 0x83#8)]
    let v := st 254 0xF4#8 [(254, 0x82#8), (255, 9#8)]
    (s.status = .running ∧ 255 < s.pc) ∧ (u.status = .running ∧ decode u.bytesFromPc = .error (.unknownOpcode 0x83#8)) ∧
      (v.status = .running ∧ decode v.bytesFromPc = .error (.truncated .ldi)) :=
  ⟨by decide, ⟨rfl, rfl⟩, ⟨rfl, rfl⟩⟩
theorem witness_StepExistsExactlyWhenRunning :
    (st 0 0#8 [] .halted).status = .halted ∧ (st 0 0#8 [] (.faulted ⟨.unknownOpcode 0#8, 0⟩)).status = .faulted ⟨.unknownOpcode 0#8, 0⟩ ∧
      (st 0 0#8 []).status = .running := by decide
/-- Both sides hold for an error of each kind of check, and neither side where no check fails. -/
theorem witness_StepReportsFirstFailingCheck :
    firstFault (st 256 0#8 []) = some (.outOfBounds .fetch 256) ∧
    firstFault (st 255 0#8 []) = some (.unknownOpcode 0#8) ∧
    firstFault (st 254 0#8 [(254, 0x82#8), (255, 9#8)]) = some (.outOfBounds .operand 256) ∧
    firstFault (st 0 0#8 [(0, 0xA0#8), (2, 8#8)]) = some (.outOfBounds .register 8) ∧
    firstFault (st 254 0#8 [(254, 0x50#8)]) = some (.outOfBounds .returnAddress 256) ∧
    firstFault (st 253 0#8 [(253, 0x50#8)]) = some (.outOfBounds .spDecrement (-1)) ∧
    firstFault (st 255 255#8 [(255, 0x11#8)]) = some (.outOfBounds .spIncrement 256) ∧
    firstFault (st 253 1#8 [(253, 0x50#8)]) = none := by decide
/-- For FaultEntryIsPrecise, StepRaisesOnlyListedErrors and the first part of PcChangesAsTheTableGives: one state for each of the three
ways to fault. -/
theorem witness_FaultEntryIsPrecise :
    (∃ t, step (st 256 0#8 []) = .next t ∧ t.status = .faulted ⟨.outOfBounds .fetch 256, 256⟩) ∧
    (∃ t, step (st 255 0#8 []) = .next t ∧ t.status = .faulted ⟨.unknownOpcode 0#8, 255⟩) ∧
    (∃ t, step (st 254 0#8 [(254, 0x45#8)]) = .next t ∧ t.status = .faulted ⟨.outOfBounds .spDecrement (-1), 254⟩) :=
  ⟨⟨_, rfl, by decide⟩, ⟨_, rfl, by decide⟩, ⟨_, rfl, by decide⟩⟩
/-- For PcChangesAsTheTableGives: a running step of each instruction that does not fault, from canonical memory. -/
theorem witness_PcChangesAsTheTableGives :
    [st 255 1#8 [(255, 0x01#8)], st 253 1#8 [(253, 0x82#8)], st 254 1#8 [(254, 0x47#8)], st 253 1#8 [(253, 0xA2#8)],
     st 253 1#8 [(253, 0xA0#8)], st 254 1#8 [(254, 0x45#8)], st 254 1#8 [(254, 0x46#8)], st 253 1#8 [(253, 0x50#8)],
     st 255 254#8 [(255, 0x11#8)]].all
      (fun s => s.mem.wf && decide (s.status = .running) && (match decode s.bytesFromPc with | .ok _ => true | .error _ => false) &&
        (match nextOf (step s) with | some t => t.safe | none => false)) = true := by decide
theorem witness_OnlyPrnAppendsAndNothingReadsOut :
    (∃ t, step (st 254 0xF4#8 [(254, 0x47#8), (255, 7#8)]) = .next t ∧ t.out ≠ [9#8]) ∧
    step (st 0 0#8 [] .halted) = .fault .halted := ⟨⟨_, rfl, by decide⟩, rfl⟩
theorem witness_RegistersChangeOnlyAsListed :
    (∃ t, exec (.push 0#8) (st 0 1#8 []) = .next t) ∧ mayWrite (.push 0#8) 0 = false := ⟨⟨_, rfl⟩, by decide⟩
theorem witness_OnlyPushAndCallStore :
    (∃ t, exec (.push 0#8) (st 0 1#8 []) = .next t ∧ t.mem.read 0 ≠ (st 0 1#8 []).mem.read 0) ∧
    (∃ t, exec (.call 0#8) (st 253 1#8 []) = .next t ∧ t.mem.read 0 ≠ (st 253 1#8 []).mem.read 0) :=
  ⟨⟨_, rfl, by decide⟩, ⟨_, rfl, by decide⟩⟩
theorem witness_StatusFollowsTheTransitionTable :
    (∃ t, event (.host (.reset (List.replicate 256 1#8))) (st 0 0#8 []) = some t) ∧ (List.replicate 256 1#8).length ≤ 256 ∧
    256 < (List.replicate 257 1#8).length ∧
    (∃ t, event (.host .start) (st 0 0#8 [] .halted) = some t) ∧ (st 0 0#8 []).status ≠ .halted ∧
    (∃ t, event .step (st 255 0#8 [(255, 0x01#8)]) = some t) :=
  ⟨⟨_, rfl⟩, by rw [List.length_replicate], by rw [List.length_replicate]; decide, ⟨_, rfl⟩, by decide, ⟨_, rfl⟩⟩
theorem witness_CallAndRetKeepPcWithinMemory :
    let s := st 253 1#8 [(253, 0x50#8)]
    let u := st 255 254#8 [(255, 0x11#8)]
    (s.status = .running ∧ s.pc ≤ 255 ∧ s.mem.read s.pc = 0x50#8 ∧ ∃ t, step s = .next t) ∧
    (u.status = .running ∧ u.pc ≤ 255 ∧ u.mem.read u.pc = 0x11#8 ∧ ∃ t, step u = .next t) :=
  ⟨⟨rfl, by decide, by decide, ⟨_, rfl⟩⟩, ⟨rfl, by decide, by decide, ⟨_, rfl⟩⟩⟩
/-- For StepKeepsInvariant: a step that stores, and one that leaves the pc at 256. -/
theorem witness_StepKeepsInvariant :
    ((st 254 1#8 [(254, 0x45#8)]).Inv ∧ ∃ t, step (st 254 1#8 [(254, 0x45#8)]) = .next t) ∧
    ((st 253 1#8 [(253, 0x82#8)]).Inv ∧ ∃ t, step (st 253 1#8 [(253, 0x82#8)]) = .next t) :=
  ⟨⟨⟨by decide, by decide, by decide⟩, ⟨_, rfl⟩⟩, ⟨⟨by decide, by decide, by decide⟩, ⟨_, rfl⟩⟩⟩
/-- For HostInputsKeepInvariant: a faulted state that meets the invariant. -/
theorem witness_HostInputsKeepInvariant : (st 254 1#8 [] (.faulted ⟨.outOfBounds .operand 256, 254⟩)).Inv :=
  ⟨by decide, by decide, by decide⟩

theorem witness_DecodeFollowsTheOpcodeMap : 0x83#8 ∉ listedOpcodes ∧ 0x00#8 ∉ listedOpcodes := by decide
theorem witness_OpcodeByteAloneFixesLength :
    decode (0x47#8 :: [0#8]) = .ok (.prn 0#8, []) ∧ decode (0x47#8 :: [255#8, 1#8]) = .ok (.prn 255#8, [1#8]) := ⟨rfl, rfl⟩
theorem witness_DecodeAndEncodeAgree : decode [0xA0#8, 255#8, 8#8, 1#8] = .ok (.add 255#8 8#8, [1#8]) := rfl
theorem witness_OpcodeByteFacts : decodeOpcode 0xA2#8 = some .mul ∧ decodeOpcode 0x11#8 = some .ret := by decide
/-- For IllFormedExactlyWhenRegisterRaises: an ill-formed and a well-formed instruction in a running state. -/
theorem witness_IllFormedExactlyWhenRegisterRaises :
    (st 0 1#8 []).status = .running ∧ (Instr.mul 7#8 8#8).wellFormed = false ∧ (Instr.mul 7#8 7#8).wellFormed = true := by decide
/-- For NextFetchSeesTheStoredByte: R2 = 2 is no opcode; a register that holds 0x01 makes the next step a HLT. -/
theorem witness_NextFetchSeesTheStoredByte :
    let s := st 252 255#8 [(252, 0x45#8), (253, 2#8)]
    let h := (st 252 255#8 [(252, 0x45#8), (253, 2#8)]).setReg 2 0x01#8
    let u := st 252 254#8 [(252, 0x45#8), (253, 2#8)]
    (s.mem.wf = true ∧ s.status = .running ∧ s.mem.read s.pc = 0x45#8 ∧ (s.mem.read (s.pc + 1)).toNat = (2 : RegIdx).val ∧
      s.sp.toNat = s.pc + 3 ∧ decodeOpcode (s.reg 2) = none) ∧
    (h.status = .running ∧ h.sp.toNat = h.pc + 3 ∧ h.reg 2 = 0x01#8) ∧ (u.status = .running ∧ u.sp.toNat = u.pc + 2) := by decide
theorem witness_AluKnowsAddAndMulOnly : (0x00#8 : Byte) ≠ 0xA0#8 ∧ (0x00#8 : Byte) ≠ 0xA2#8 := by decide
theorem witness_ReadReturnsTheLatestWrite : ∀ w ∈ ([(255, 1#8), (255, 0#8), (0, 3#8)] : List Host.Cell), w.1 < 256 := by decide
theorem witness_EqualReadsMeanEqualMemory : Memory.wf [(0, 1#8), (255, 2#8)] = true := by decide
theorem witness_ResetPlacesTheImageOrNothing : (List.replicate 256 1#8).length ≤ 256 ∧ 256 < (List.replicate 257 1#8).length :=
  ⟨by rw [List.length_replicate], by rw [List.length_replicate]; decide⟩
/-- For HostReadsStatusAndOutAtAnyTime: a step that sends a value, and the two statuses without a step. -/
theorem witness_HostReadsStatusAndOutAtAnyTime :
    (∃ t, event .step (st 254 0xF4#8 [(254, 0x47#8), (255, 7#8)]) = some t ∧ t.hostView = ⟨.running, [9#8, 0xF4#8]⟩) ∧
    (st 0 0#8 [] .halted).hostView.status ≠ .running ∧
    (st 0 0#8 [] (.faulted ⟨.unknownOpcode 0#8, 0⟩)).hostView.status ≠ .running := ⟨⟨_, rfl, by decide⟩, by decide, by decide⟩
/-- The host reads the values sent so far while the run goes on (V11, with a value sent before). -/
theorem test_hostView_running : (after State.hostView (st 3 0xF4#8 [(3, 0x47#8)])) = some ⟨.running, [9#8, 0x2A#8]⟩ := by decide
theorem witness_EndedRunsStayEnded : (run 1 (st 255 0#8 [(255, 0x01#8)])).status ≠ .running := by decide

end Sys2Proof.Tests
end

/-! What one instruction and one step can do, said once: an inversion of `exec` and of `step`. -/

namespace Sys2Proof.Machine

/-- The state after an instruction that does not raise, with the conditions under which it does not: one constructor per rule R100 to
R102, R121, R122, R142, R143, R160, R161. `exec_eq_next_iff` ties it to `exec`. -/
inductive Completes (s : State) : Instr → State → Prop
  | hlt : Completes s .hlt (s.setStatus .halted)
  | ldi {b v : Byte} {r : RegIdx} (hr : b.toNat = r.val) : Completes s (.ldi b v) ((s.setReg r v).advance 3)
  | prn {b : Byte} {r : RegIdx} (hr : b.toNat = r.val) : Completes s (.prn b) ((s.emit (s.reg r)).advance 2)
  | mul {b1 b2 : Byte} {a b : RegIdx} (ha : b1.toNat = a.val) (hb : b2.toNat = b.val) :
      Completes s (.mul b1 b2) ((s.setReg a (BitVec.ofNat 8 ((s.reg a).toNat * (s.reg b).toNat))).advance 3)
  | add {b1 b2 : Byte} {a b : RegIdx} (ha : b1.toNat = a.val) (hb : b2.toNat = b.val) :
      Completes s (.add b1 b2) ((s.setReg a (BitVec.ofNat 8 ((s.reg a).toNat + (s.reg b).toNat))).advance 3)
  | push {b : Byte} {r : RegIdx} (hr : b.toNat = r.val) (hsp : s.sp ≠ 0#8) :
      Completes s (.push b)
        (((s.setReg Config.spIndex (s.sp - 1#8)).memWrite s.pushAddress (s.reg r)).advance 2)
  | pop {b : Byte} {r : RegIdx} (hr : b.toNat = r.val) (hsp : s.sp ≠ 255#8) :
      Completes s (.pop b)
        (((s.setReg Config.spIndex (s.sp + 1#8)).setReg r (s.mem.read s.sp.toNat)).advance 2)
  | call {b : Byte} {r : RegIdx} (hr : b.toNat = r.val) (hpc : s.pc + 2 ≤ 255) (hsp : s.sp ≠ 0#8) :
      Completes s (.call b)
        (((s.setReg Config.spIndex (s.sp - 1#8)).memWrite s.pushAddress (BitVec.ofNat 8 (s.pc + 2))).setPc
          (s.reg r).toNat)
  | ret (hsp : s.sp ≠ 255#8) :
      Completes s .ret ((s.setReg Config.spIndex (s.sp + 1#8)).setPc (s.mem.read s.sp.toNat).toNat)

/-- The error of an instruction that raises: one constructor per check, which presumes that the checks before it in R185's order
passed. `exec_eq_next_iff` ties it to `exec`. -/
inductive Raises (s : State) : Instr → Error → Prop
  | ldi {b v : Byte} (hb : 7 < b.toNat) : Raises s (.ldi b v) (.outOfBounds .register b.toNat)
  | prn {b : Byte} (hb : 7 < b.toNat) : Raises s (.prn b) (.outOfBounds .register b.toNat)
  | mulFirst {b1 b2 : Byte} (hb : 7 < b1.toNat) : Raises s (.mul b1 b2) (.outOfBounds .register b1.toNat)
  | mulSecond {b1 b2 : Byte} {a : RegIdx} (ha : b1.toNat = a.val) (hb : 7 < b2.toNat) :
      Raises s (.mul b1 b2) (.outOfBounds .register b2.toNat)
  | addFirst {b1 b2 : Byte} (hb : 7 < b1.toNat) : Raises s (.add b1 b2) (.outOfBounds .register b1.toNat)
  | addSecond {b1 b2 : Byte} {a : RegIdx} (ha : b1.toNat = a.val) (hb : 7 < b2.toNat) :
      Raises s (.add b1 b2) (.outOfBounds .register b2.toNat)
  | push {b : Byte} (hb : 7 < b.toNat) : Raises s (.push b) (.outOfBounds .register b.toNat)
  | pushSp {b : Byte} {r : RegIdx} (hr : b.toNat = r.val) (hsp : s.sp = 0#8) :
      Raises s (.push b) (.outOfBounds .spDecrement (-1))
  | pop {b : Byte} (hb : 7 < b.toNat) : Raises s (.pop b) (.outOfBounds .register b.toNat)
  | popSp {b : Byte} {r : RegIdx} (hr : b.toNat = r.val) (hsp : s.sp = 255#8) :
      Raises s (.pop b) (.outOfBounds .spIncrement 256)
  | call {b : Byte} (hb : 7 < b.toNat) : Raises s (.call b) (.outOfBounds .register b.toNat)
  | callReturn {b : Byte} {r : RegIdx} (hr : b.toNat = r.val) (hpc : 255 < s.pc + 2) :
      Raises s (.call b) (.outOfBounds .returnAddress (s.pc + 2 : Nat))
  | callSp {b : Byte} {r : RegIdx} (hr : b.toNat = r.val) (hpc : s.pc + 2 ≤ 255) (hsp : s.sp = 0#8) :
      Raises s (.call b) (.outOfBounds .spDecrement (-1))
  | retSp (hsp : s.sp = 255#8) : Raises s .ret (.outOfBounds .spIncrement 256)

/-- The shared body of MUL and ADD on two bytes that name registers. -/
theorem aluInstr_ok {op b1 b2 v : Byte} {a b : RegIdx} {s : State} (ha : b1.toNat = a.val) (hb : b2.toNat = b.val)
    (hv : aluResult op (s.reg a) (s.reg b) = .ok v) : aluInstr op b1 b2 s = .next ((s.setReg a v).advance 3) := by
  simp only [aluInstr, alu, regIdx_ok ha, regIdx_ok hb, hv, bind, Except.bind]; rfl

/-- The shared body of MUL and ADD on a first byte that names no register. -/
theorem aluInstr_first_error {op b1 b2 : Byte} {s : State} (hb : 7 < b1.toNat) :
    aluInstr op b1 b2 s = .next (s.raise (.outOfBounds .register b1.toNat)) := by
  simp only [aluInstr, regIdx_error hb, bind, Except.bind]; rfl

/-- The shared body of MUL and ADD on a second byte that names no register. -/
theorem aluInstr_second_error {op b1 b2 : Byte} {a : RegIdx} {s : State} (ha : b1.toNat = a.val) (hb : 7 < b2.toNat) :
    aluInstr op b1 b2 s = .next (s.raise (.outOfBounds .register b2.toNat)) := by
  simp only [aluInstr, regIdx_ok ha, regIdx_error hb, bind, Except.bind]; rfl

theorem Completes.exec_eq {s t : State} {i : Instr} (h : Completes s i t) : exec i s = .next t := by
  cases h with
  | hlt => rfl
  | ldi hr => simp only [exec, execLdi, regIdx_ok hr, bind, Except.bind]; rfl
  | prn hr => simp only [exec, execPrn, regIdx_ok hr, bind, Except.bind]; rfl
  | mul ha hb => exact aluInstr_ok ha hb (aluResult_mul ..)
  | add ha hb => exact aluInstr_ok ha hb (aluResult_add ..)
  | push hr hsp => simp only [exec, execPush, regIdx_ok hr, pushValue_ok _ hsp, bind, Except.bind]; rfl
  | pop hr hsp => simp only [exec, execPop, regIdx_ok hr, popValue_ok hsp, bind, Except.bind]; rfl
  | call hr hpc hsp =>
    simp only [exec, execCall, regIdx_ok hr, returnAddress_ok hpc, pushValue_ok _ hsp, bind, Except.bind]; rfl
  | ret hsp => simp only [exec, execRet, popValue_ok hsp, bind, Except.bind]; rfl

theorem Raises.exec_eq {s : State} {i : Instr} {e : Error} (h : Raises s i e) : exec i s = .next (s.raise e) := by
  cases h with
  | ldi hb => simp only [exec, execLdi, regIdx_error hb, bind, Except.bind, finish_error]
  | prn hb => simp only [exec, execPrn, regIdx_error hb, bind, Except.bind, finish_error]
  | mulFirst hb => exact aluInstr_first_error hb
  | mulSecond ha hb => exact aluInstr_second_error ha hb
  | addFirst hb => exact aluInstr_first_error hb
  | addSecond ha hb => exact aluInstr_second_error ha hb
  | push hb => simp only [exec, execPush, regIdx_error hb, bind, Except.bind, finish_error]
  | pushSp hr hsp =>
    simp only [exec, execPush, regIdx_ok hr, pushValue_error _ hsp, bind, Except.bind, finish_error]
  | pop hb => simp only [exec, execPop, regIdx_error hb, bind, Except.bind, finish_error]
  | popSp hr hsp => simp only [exec, execPop, regIdx_ok hr, popValue_error hsp, bind, Except.bind, finish_error]
  | call hb => simp only [exec, execCall, regIdx_error hb, bind, Except.bind, finish_error]
  | callReturn hr hpc =>
    simp only [exec, execCall, regIdx_ok hr, returnAddress_error hpc, bind, Except.bind, finish_error]
  | callSp hr hpc hsp =>
    simp only [exec, execCall, regIdx_ok hr, returnAddress_ok hpc, pushValue_error _ hsp, bind, Except.bind,
      finish_error]
  | retSp hsp => simp only [exec, execRet, popValue_error hsp, bind, Except.bind, finish_error]

/-- A byte names a register or is above 7: the case split of every register operand (R86). -/
theorem register_or_above_seven (b : Byte) : (∃ r : RegIdx, b.toNat = r.val) ∨ 7 < b.toNat := by
  obtain ⟨r, hr, -⟩ | ⟨hb, -⟩ := regIdx_cases b
  · exact .inl ⟨r, hr⟩
  · exact .inr hb

/-- Every instruction completes or raises, in every state. -/
theorem completes_or_raises (i : Instr) (s : State) : (∃ t, Completes s i t) ∨ (∃ e, Raises s i e) := by
  cases i with
  | hlt => exact .inl ⟨_, .hlt⟩
  | ldi b v =>
    obtain ⟨r, hr⟩ | hb := register_or_above_seven b
    · exact .inl ⟨_, .ldi hr⟩
    · exact .inr ⟨_, .ldi hb⟩
  | prn b =>
    obtain ⟨r, hr⟩ | hb := register_or_above_seven b
    · exact .inl ⟨_, .prn hr⟩
    · exact .inr ⟨_, .prn hb⟩
  | mul b1 b2 =>
    obtain ⟨a, ha⟩ | hb := register_or_above_seven b1
    · obtain ⟨b, hb⟩ | hb := register_or_above_seven b2
      · exact .inl ⟨_, .mul ha hb⟩
      · exact .inr ⟨_, .mulSecond ha hb⟩
    · exact .inr ⟨_, .mulFirst hb⟩
  | add b1 b2 =>
    obtain ⟨a, ha⟩ | hb := register_or_above_seven b1
    · obtain ⟨b, hb⟩ | hb := register_or_above_seven b2
      · exact .inl ⟨_, .add ha hb⟩
      · exact .inr ⟨_, .addSecond ha hb⟩
    · exact .inr ⟨_, .addFirst hb⟩
  | push b =>
    obtain ⟨r, hr⟩ | hb := register_or_above_seven b
    · by_cases hsp : s.sp = 0#8
      · exact .inr ⟨_, .pushSp hr hsp⟩
      · exact .inl ⟨_, .push hr hsp⟩
    · exact .inr ⟨_, .push hb⟩
  | pop b =>
    obtain ⟨r, hr⟩ | hb := register_or_above_seven b
    · by_cases hsp : s.sp = 255#8
      · exact .inr ⟨_, .popSp hr hsp⟩
      · exact .inl ⟨_, .pop hr hsp⟩
    · exact .inr ⟨_, .pop hb⟩
  | call b =>
    obtain ⟨r, hr⟩ | hb := register_or_above_seven b
    · obtain hpc | hpc := Nat.lt_or_ge 255 (s.pc + 2)
      · exact .inr ⟨_, .callReturn hr hpc⟩
      · by_cases hsp : s.sp = 0#8
        · exact .inr ⟨_, .callSp hr hpc hsp⟩
        · exact .inl ⟨_, .call hr hpc hsp⟩
    · exact .inr ⟨_, .call hb⟩
  | ret =>
    by_cases hsp : s.sp = 255#8
    · exact .inr ⟨_, .retSp hsp⟩
    · exact .inl ⟨_, .ret hsp⟩

/-- Everything the execution of an instruction can do. -/
theorem exec_eq_next_iff {i : Instr} {s t : State} :
    exec i s = .next t ↔ Completes s i t ∨ ∃ e, Raises s i e ∧ t = s.raise e := by
  constructor
  · intro h
    obtain ⟨u, hu⟩ | ⟨e, he⟩ := completes_or_raises i s
    · cases hu.exec_eq.symm.trans h
      exact .inl hu
    · cases he.exec_eq.symm.trans h
      exact .inr ⟨e, he, rfl⟩
  · rintro (h | ⟨e, he, rfl⟩)
    · exact h.exec_eq
    · exact he.exec_eq

/-- An instruction that completes leaves the status alone, or is HLT and halts: it never enters `Faulted` of its own. -/
theorem Completes.status_eq {s t : State} {i : Instr} (h : Completes s i t) :
    t.status = s.status ∨ (i = .hlt ∧ t.status = .halted) := by
  cases h with
  | hlt => exact .inr ⟨rfl, rfl⟩
  | ldi | prn | mul | add | push | pop | call | ret => exact .inl rfl

/-- The error of a step that raises: in the fetch, or in the execution of the fetched instruction. -/
def StepRaises (s : State) (e : Error) : Prop :=
  fetchInstr s = .error e ∨ ∃ i, fetchInstr s = .ok i ∧ Raises s i e

/-- Everything a step can do with a next state: the status is `Running`, and the fetched instruction completes or the step takes
fault entry. -/
theorem step_eq_next_iff {s t : State} :
    step s = .next t ↔ s.status = .running ∧
      ((∃ i, fetchInstr s = .ok i ∧ Completes s i t) ∨ ∃ e, StepRaises s e ∧ t = s.raise e) := by
  cases hs : s.status with
  | halted => simp [step_halted hs]
  | faulted e => simp [step_faulted hs]
  | running =>
    cases hf : fetchInstr s with
    | error e => simp [step_of_fetch_error hs hf, StepRaises, hf, eq_comm]
    | ok i => simp [step_of_fetch hs hf, StepRaises, hf, exec_eq_next_iff]

/-- A running machine has a step. -/
theorem exists_step_of_running {s : State} (h : s.status = .running) : ∃ t, step s = .next t := by
  cases hf : fetchInstr s with
  | error e => exact ⟨_, step_of_fetch_error h hf⟩
  | ok i =>
    rw [step_of_fetch h hf]
    obtain ⟨t, ht⟩ | ⟨e, he⟩ := completes_or_raises i s
    · exact ⟨t, ht.exec_eq⟩
    · exact ⟨_, he.exec_eq⟩

end Sys2Proof.Machine

/-! The fetched instruction, read off the bytes at the pc, and that the decoder reads the same one. -/

namespace Sys2Proof

/-- The opcode byte of R63's table. -/
def Opcode.byte : Opcode → Byte
  | .hlt => 0x01#8
  | .ldi => 0x82#8
  | .prn => 0x47#8
  | .mul => 0xA2#8
  | .add => 0xA0#8
  | .push => 0x45#8
  | .pop => 0x46#8
  | .call => 0x50#8
  | .ret => 0x11#8

/-- An opcode byte selects exactly its opcode (R63). -/
theorem decodeOpcode_eq_some_iff {b : Byte} {oc : Opcode} : decodeOpcode b = some oc ↔ b = oc.byte := by
  constructor
  · intro h
    unfold decodeOpcode at h
    split_ifs at h <;> cases h <;> assumption
  · rintro rfl
    cases oc <;> rfl

/-- The three formats of R60. -/
theorem Opcode.operandCount_cases (oc : Opcode) :
    oc.operandCount = 0 ∨ oc.operandCount = 1 ∨ oc.operandCount = 2 := by
  cases oc <;> decide

end Sys2Proof

namespace Sys2Proof.Machine

/-- The instruction that an opcode makes of the two bytes after the pc, of which it looks at as many as it has operands. -/
def instrAtPc (s : State) (oc : Opcode) : Instr := oc.instr (s.mem.read (s.pc + 1)) (s.mem.read (s.pc + 2))

theorem instrAtPc_of_no_operand (s : State) {oc : Opcode} (h : oc.operandCount = 0) :
    instrAtPc s oc = oc.instr 0#8 0#8 := by
  cases oc with
  | hlt | ret => rfl
  | ldi | prn | mul | add | push | pop | call => cases h

theorem instrAtPc_of_one_operand (s : State) {oc : Opcode} (h : oc.operandCount = 1) :
    instrAtPc s oc = oc.instr (s.mem.read (s.pc + 1)) 0#8 := by
  cases oc with
  | prn | push | pop | call => rfl
  | hlt | ldi | mul | add | ret => cases h

/-- No cell at the pc (R84). -/
theorem fetchInstr_past_memory {s : State} (hpc : 255 < s.pc) : fetchInstr s = .error (.outOfBounds .fetch s.pc) := by
  simp [fetchInstr, fetchDecode, hpc, bind, Except.bind]

/-- An unlisted opcode byte (R84). -/
theorem fetchInstr_unknown {s : State} (hpc : s.pc ≤ 255) (hop : decodeOpcode (s.mem.read s.pc) = none) :
    fetchInstr s = .error (.unknownOpcode (s.mem.read s.pc)) := by
  simp [fetchInstr, fetchDecode, Nat.not_lt.mpr hpc, hop, bind, Except.bind]

theorem fetchDecode_ok {s : State} {oc : Opcode} (hpc : s.pc ≤ 255) (hop : decodeOpcode (s.mem.read s.pc) = some oc) :
    fetchDecode s = .ok oc := by
  simp [fetchDecode, Nat.not_lt.mpr hpc, hop]

/-- A listed opcode byte: the fetch succeeds if all operand bytes lie in memory, and otherwise raises for the one at 256 (R85). -/
theorem fetchInstr_of_opcode {s : State} {oc : Opcode} (hpc : s.pc ≤ 255)
    (hop : decodeOpcode (s.mem.read s.pc) = some oc) :
    fetchInstr s = if s.pc + oc.operandCount ≤ 255 then .ok (instrAtPc s oc) else .error (.outOfBounds .operand 256) := by
  simp only [fetchInstr, fetchDecode_ok hpc hop, bind, Except.bind]
  obtain h | h | h := oc.operandCount_cases
  · simp [h, hpc, pure, Except.pure, instrAtPc_of_no_operand s h]
  · rw [instrAtPc_of_one_operand s h, h]
    obtain h1 | h1 := Nat.lt_or_ge 255 (s.pc + 1)
    · have : s.pc = 255 := by omega
      simp [operandFetch_error h1, this]
    · simp [operandFetch_ok h1, h1, pure, Except.pure]
  · rw [instrAtPc, h]
    obtain h1 | h1 := Nat.lt_or_ge 255 (s.pc + 1)
    · have : s.pc = 255 := by omega
      simp [operandFetch_error h1, this]
    · obtain h2 | h2 := Nat.lt_or_ge 255 (s.pc + 2)
      · have : s.pc = 254 := by omega
        simp [operandFetch_ok h1, operandFetch_error h2, this]
      · simp [operandFetch_ok h1, operandFetch_ok h2, h2, pure, Except.pure]

/-- A listed opcode byte: the decoder, shown the bytes from the pc on, reads the same instruction as the fetch, or finds the string too
short where the fetch raises. -/
theorem decode_bytesFromPc_of_opcode {s : State} {oc : Opcode} (hpc : s.pc ≤ 255)
    (hop : decodeOpcode (s.mem.read s.pc) = some oc) :
    decode s.bytesFromPc =
      if s.pc + oc.operandCount ≤ 255 then .ok (instrAtPc s oc, (s.advance (oc.operandCount + 1)).bytesFromPc)
      else .error (.truncated oc) := by
  have hnil (n : Nat) (h : 255 < s.pc + n) : (s.advance n).bytesFromPc = [] := State.bytesFromPc_nil h
  have hcons (n : Nat) (h : s.pc + n ≤ 255) :
      (s.advance n).bytesFromPc = s.mem.read (s.pc + n) :: (s.advance (n + 1)).bytesFromPc :=
    State.bytesFromPc_cons h
  simp only [State.bytesFromPc_cons hpc, decode, hop, decodeOperands]
  obtain h | h | h := oc.operandCount_cases
  · simp [h, hpc, instrAtPc_of_no_operand s h]
  · rw [instrAtPc_of_one_operand s h, h]
    obtain h1 | h1 := Nat.lt_or_ge 255 (s.pc + 1)
    · rw [if_neg (by omega)]
      simp [hnil 1 h1]
    · simp [hcons 1 h1, h1]
  · rw [instrAtPc, h]
    obtain h1 | h1 := Nat.lt_or_ge 255 (s.pc + 1)
    · rw [if_neg (by omega)]
      simp [hnil 1 h1]
    · obtain h2 | h2 := Nat.lt_or_ge 255 (s.pc + 2)
      · rw [if_neg (by omega)]
        simp [hcons 1 h1, hnil 2 h2]
      · simp [hcons 1 h1, hcons 2 h2, h2]

/-- A fetch succeeds exactly where a listed opcode byte stands at the pc and all its operand bytes lie in memory. -/
theorem fetchInstr_eq_ok_iff {s : State} {i : Instr} :
    fetchInstr s = .ok i ↔
      ∃ oc, decodeOpcode (s.mem.read s.pc) = some oc ∧ s.pc + oc.operandCount ≤ 255 ∧ i = instrAtPc s oc := by
  constructor
  · intro h
    obtain hpc | hpc := Nat.lt_or_ge 255 s.pc
    · simp [fetchInstr_past_memory hpc] at h
    · cases hop : decodeOpcode (s.mem.read s.pc) with
      | none => simp [fetchInstr_unknown hpc hop] at h
      | some oc =>
        rw [fetchInstr_of_opcode hpc hop] at h
        split_ifs at h with hlen
        exact ⟨oc, rfl, hlen, (Except.ok.inj h).symm⟩
  · rintro ⟨oc, hop, hlen, rfl⟩
    rw [fetchInstr_of_opcode (by omega) hop, if_pos hlen]

/-- The instruction that the decoder reads from the pc on is the one fetched. -/
theorem fetchInstr_of_decode {s : State} {i : Instr} {rest : List Byte} (h : decode s.bytesFromPc = .ok (i, rest)) :
    fetchInstr s = .ok i := by
  obtain hpc | hpc := Nat.lt_or_ge 255 s.pc
  · simp [State.bytesFromPc_nil hpc, decode] at h
  · cases hop : decodeOpcode (s.mem.read s.pc) with
    | none => simp [State.bytesFromPc_cons hpc, decode, hop] at h
    | some oc =>
      rw [decode_bytesFromPc_of_opcode hpc hop] at h
      split_ifs at h with hlen
      cases h
      exact fetchInstr_eq_ok_iff.mpr ⟨oc, hop, hlen, rfl⟩

/-- A fetched PRN has its opcode byte at the pc and its operand byte after it. -/
theorem bytes_of_fetch_prn {s : State} {b : Byte} (h : fetchInstr s = .ok (.prn b)) :
    s.pc ≤ 255 ∧ s.mem.read s.pc = 0x47#8 ∧ b = s.mem.read (s.pc + 1) := by
  obtain ⟨oc, hop, hlen, hi⟩ := fetchInstr_eq_ok_iff.mp h
  cases oc <;> cases hi
  exact ⟨by omega, decodeOpcode_eq_some_iff.mp hop, rfl⟩

end Sys2Proof.Machine

/-! How each instruction changes the pc (10_state.md R26). -/

namespace Sys2Proof.Machine

/-- A step into `Faulted` took fault entry. -/
theorem step_faults {s t : State} {e : FaultRecord} (h : step s = .next t) (ht : t.status = .faulted e) :
    ∃ err, StepRaises s err ∧ t = s.raise err := by
  obtain ⟨hs, ⟨i, -, hc⟩ | hr⟩ := step_eq_next_iff.mp h
  · obtain hk | ⟨-, hk⟩ := hc.status_eq <;> simp [ht, hs] at hk
  · exact hr

/-- The decremented SP points at the cell a push stores to. -/
theorem State.toNat_sp_sub_one {s : State} (h : s.sp ≠ 0#8) : (s.sp - 1#8).toNat = s.pushAddress := sp_sub_one_toNat h

/-- A completed CALL leaves the address of the byte after it at the SP it leaves (R160). -/
theorem Completes.call_return_address {s t : State} {b : Byte} (hwf : s.mem.wf = true) (h : Completes s (.call b) t) :
    (t.mem.read t.sp.toNat).toNat = s.pc + 2 := by
  cases h with
  | call hr hpc hsp =>
    simp [State.toNat_sp_sub_one hsp, Memory.read_write hwf]
    omega

/-- Settles O19: a fault is fault entry, which keeps the pc, and an instruction that completes is read off its rule. -/
theorem pcChangesAsTheTableGives : Obligations.PcChangesAsTheTableGives := by
  refine ⟨fun s t e _ hstep ht => ?_, fun s t i rest hwf hs hdec hstep hnf => ?_⟩
  · obtain ⟨err, -, rfl⟩ := step_faults hstep ht
    rfl
  · rw [step_of_fetch hs (fetchInstr_of_decode hdec)] at hstep
    obtain hc | ⟨e, -, rfl⟩ := exec_eq_next_iff.mp hstep
    · cases hc with
      | hlt | ldi | prn | mul | add | push | pop | ret => exact ⟨rfl, rfl⟩
      | call hr hpc hsp => exact ⟨rfl, ⟨_, hr, rfl⟩, Completes.call_return_address hwf (.call hr hpc hsp)⟩
    · exact absurd rfl (hnf _)

end Sys2Proof.Machine

/-! Who writes the output trace and who reads it (10_state.md R31). -/

namespace Sys2Proof.Machine

/-- Either an instruction leaves the trace alone, and completes alike with any other, or it is PRN, which appends its register's
value. -/
theorem Completes.out_cases {s t : State} {i : Instr} (h : Completes s i t) :
    (t.out = s.out ∧ ∀ o, Completes { s with out := o } i { t with out := o }) ∨
    (∃ (b : Byte) (r : RegIdx), i = .prn b ∧ b.toNat = r.val ∧ t = (s.emit (s.reg r)).advance 2) := by
  cases h with
  | prn hr => exact .inr ⟨_, _, rfl, hr, rfl⟩
  | hlt => exact .inl ⟨rfl, fun _ => .hlt⟩
  | ldi hr => exact .inl ⟨rfl, fun _ => .ldi hr⟩
  | mul ha hb => exact .inl ⟨rfl, fun _ => .mul ha hb⟩
  | add ha hb => exact .inl ⟨rfl, fun _ => .add ha hb⟩
  | push hr hsp => exact .inl ⟨rfl, fun _ => .push hr hsp⟩
  | pop hr hsp => exact .inl ⟨rfl, fun _ => .pop hr hsp⟩
  | call hr hpc hsp => exact .inl ⟨rfl, fun _ => .call hr hpc hsp⟩
  | ret hsp => exact .inl ⟨rfl, fun _ => .ret hsp⟩

/-- No check of an instruction looks at the trace. -/
theorem Raises.with_out {s : State} {i : Instr} {e : Error} (h : Raises s i e) (o : List Byte) :
    Raises { s with out := o } i e := by
  cases h with
  | ldi hb => exact .ldi hb
  | prn hb => exact .prn hb
  | mulFirst hb => exact .mulFirst hb
  | mulSecond ha hb => exact .mulSecond ha hb
  | addFirst hb => exact .addFirst hb
  | addSecond ha hb => exact .addSecond ha hb
  | push hb => exact .push hb
  | pushSp hr hsp => exact .pushSp hr hsp
  | pop hb => exact .pop hb
  | popSp hr hsp => exact .popSp hr hsp
  | call hb => exact .call hb
  | callReturn hr hpc => exact .callReturn hr hpc
  | callSp hr hpc hsp => exact .callSp hr hpc hsp
  | retSp hsp => exact .retSp hsp

/-- The fetch does not look at the trace. -/
theorem fetchInstr_with_out (s : State) (o : List Byte) : fetchInstr { s with out := o } = fetchInstr s := rfl

theorem StepRaises.with_out {s : State} {e : Error} (h : StepRaises s e) (o : List Byte) :
    StepRaises { s with out := o } e := by
  obtain hf | ⟨i, hf, hr⟩ := h
  · exact .inl hf
  · exact .inr ⟨i, hf, hr.with_out o⟩

/-- Reset empties the trace, whether or not the image fits. -/
theorem out_resetImage (image : List Byte) : (resetImage image).out = [] := by
  unfold resetImage load
  split <;> rfl

theorem out_start (s : State) : (start s).out = s.out := by
  unfold start
  split <;> rfl

/-- A step leaves the trace alone, or it is a PRN's and appends the register's value. -/
theorem step_out_cases {s t : State} (h : step s = .next t) :
    t.out = s.out ∨ (s.pc ≤ 255 ∧ s.mem.read s.pc = 0x47#8 ∧
      ∃ r : RegIdx, (s.mem.read (s.pc + 1)).toNat = r.val ∧ t.out = s.out ++ [s.reg r]) := by
  obtain ⟨-, ⟨i, hf, hc⟩ | ⟨e, -, rfl⟩⟩ := step_eq_next_iff.mp h
  · obtain ⟨ho, -⟩ | ⟨b, r, rfl, hr, rfl⟩ := hc.out_cases
    · exact .inl ho
    · obtain ⟨hpc, hop, rfl⟩ := bytes_of_fetch_prn hf
      exact .inr ⟨hpc, hop, r, hr, rfl⟩
  · exact .inl rfl

/-- With another trace the same step sends the same values and does everything else alike. -/
theorem step_with_out {s t : State} (h : step s = .next t) (o : List Byte) :
    ∃ sent, t.out = s.out ++ sent ∧ step { s with out := o } = .next { t with out := o ++ sent } := by
  obtain ⟨hs, ⟨i, hf, hc⟩ | ⟨e, hr, rfl⟩⟩ := step_eq_next_iff.mp h
  · obtain ⟨ho, hc'⟩ | ⟨b, r, rfl, hr, rfl⟩ := hc.out_cases
    · refine ⟨[], by simp [ho], step_eq_next_iff.mpr ⟨hs, .inl ⟨i, hf, ?_⟩⟩⟩
      simpa using hc' o
    · exact ⟨[s.reg r], rfl, step_eq_next_iff.mpr ⟨hs, .inl ⟨_, hf, .prn hr⟩⟩⟩
  · refine ⟨[], by simp, step_eq_next_iff.mpr ⟨hs, .inr ⟨e, hr.with_out o, ?_⟩⟩⟩
    simp [State.raise, State.setStatus]

/-- A step that stops looks at the status alone. -/
theorem step_fault_with_out {s : State} {f : Fault} (h : step s = .fault f) (o : List Byte) :
    step { s with out := o } = .fault f := by
  cases hs : s.status with
  | halted =>
    cases (step_halted hs).symm.trans h
    exact step_halted rfl
  | faulted e =>
    cases (step_faulted hs).symm.trans h
    exact step_faulted rfl
  | running =>
    obtain ⟨t, ht⟩ := exists_step_of_running hs
    cases ht.symm.trans h

/-- Settles O20: only PRN's rule writes the trace, and no rule, check or fetch looks at it. -/
theorem onlyPrnAppendsAndNothingReadsOut : Obligations.OnlyPrnAppendsAndNothingReadsOut :=
  ⟨out_resetImage, out_start, fun _ _ => step_out_cases,
    fun _ o => ⟨fun _ h => step_with_out h o, fun _ h => step_fault_with_out h o⟩⟩

end Sys2Proof.Machine

/-! The decoder undoes the encoder, and reads nothing but encodings (30_encoding.md R63 and R64). -/

namespace Sys2Proof

theorem decode_of_listed {op : Byte} {oc : Opcode} (h : decodeOpcode op = some oc) (bytes : List Byte) :
    decode (op :: bytes) = decodeOperands oc bytes := by
  simp [decode, h]

theorem decode_of_unlisted {op : Byte} (h : decodeOpcode op = none) (bytes : List Byte) :
    decode (op :: bytes) = .error (.unknownOpcode op) := by
  simp [decode, h]

theorem Opcode.byte_mem_listedOpcodes (oc : Opcode) : oc.byte ∈ Machine.listedOpcodes := by
  cases oc <;> decide

/-- The map is complete: a byte outside the list selects no opcode (R66). -/
theorem decodeOpcode_eq_none_of_unlisted {op : Byte} (h : op ∉ Machine.listedOpcodes) : decodeOpcode op = none := by
  cases hop : decodeOpcode op with
  | none => rfl
  | some oc =>
    obtain rfl := decodeOpcode_eq_some_iff.mp hop
    exact absurd oc.byte_mem_listedOpcodes h

/-- The formats of R60: the opcode byte, then as many operand bytes as the opcode has. -/
theorem encode_instr (oc : Opcode) (b1 b2 : Byte) :
    encode (oc.instr b1 b2) = oc.byte :: [b1, b2].take oc.operandCount := by
  cases oc <;> rfl

/-- What the decoder takes off for the operands is what the encoder writes after the opcode byte. -/
theorem cons_eq_encode_append_of_decodeOperands {oc : Opcode} {bytes rest : List Byte} {i : Instr}
    (h : decodeOperands oc bytes = .ok (i, rest)) : oc.byte :: bytes = encode i ++ rest := by
  unfold decodeOperands at h
  split at h
  case h_1 hn | h_2 hn | h_3 hn =>
    cases h
    simp [encode_instr, hn]
  case h_4 => cases h

theorem eq_encode_append_of_decode {bytes rest : List Byte} {i : Instr} (h : decode bytes = .ok (i, rest)) :
    bytes = encode i ++ rest := by
  cases bytes with
  | nil => cases h
  | cons op operands =>
    cases hop : decodeOpcode op with
    | none => cases (decode_of_unlisted hop operands).symm.trans h
    | some oc =>
      obtain rfl := decodeOpcode_eq_some_iff.mp hop
      exact cons_eq_encode_append_of_decodeOperands ((decode_of_listed hop operands).symm.trans h)

theorem decode_encode_append (i : Instr) (rest : List Byte) : decode (encode i ++ rest) = .ok (i, rest) := by
  cases i <;> rfl

/-- Settles O28: each pattern is the encoding of its instruction, and a byte outside the list selects no opcode. -/
theorem decodeFollowsTheOpcodeMap : Obligations.DecodeFollowsTheOpcodeMap := fun b1 b2 rest =>
  ⟨decode_encode_append .hlt rest, decode_encode_append (.ldi b1 b2) rest, decode_encode_append (.prn b1) rest,
    decode_encode_append (.mul b1 b2) rest, decode_encode_append (.add b1 b2) rest, decode_encode_append (.push b1) rest,
    decode_encode_append (.pop b1) rest, decode_encode_append (.call b1) rest, decode_encode_append .ret rest,
    fun _ hop => decode_of_unlisted (decodeOpcode_eq_none_of_unlisted hop) rest⟩

/-- The family of the model's `EncodedLength` facts, one per instruction, as one statement. -/
theorem encodedLength (i : Instr) : Laws.EncodedLength.Statement i :=
  match i with
  | .hlt => Laws.EncodedLength.hlt
  | .ldi b v => Laws.EncodedLength.ldi b v
  | .prn b => Laws.EncodedLength.prn b
  | .mul a b => Laws.EncodedLength.mul a b
  | .add a b => Laws.EncodedLength.add a b
  | .push b => Laws.EncodedLength.push b
  | .pop b => Laws.EncodedLength.pop b
  | .call b => Laws.EncodedLength.call b
  | .ret => Laws.EncodedLength.ret

/-- The first byte of an encoding is a listed opcode byte, and the opcode has the length of the encoding (R64). -/
theorem decodeOpcode_head_of_encode {op : Byte} {bytes rest : List Byte} {i : Instr} (h : op :: bytes = encode i ++ rest) :
    ∃ oc, decodeOpcode op = some oc ∧ (encode i).length = oc.length := by
  obtain ⟨oc, hoc, hlen⟩ := encodedLength i
  cases henc : encode i with
  | nil => simp [henc] at hoc
  | cons b tail =>
    rw [henc] at h hoc hlen
    cases h
    exact ⟨oc, hoc, hlen⟩

/-- Settles O29: both strings begin with an encoding, and the one opcode byte gives both encodings their length. -/
theorem opcodeByteAloneFixesLength : Obligations.OpcodeByteAloneFixesLength := by
  intro op r1 r2 rest1 rest2 i j hi hj
  have hi := eq_encode_append_of_decode hi
  have hj := eq_encode_append_of_decode hj
  obtain ⟨oc, hoc, hlen_i⟩ := decodeOpcode_head_of_encode hi
  obtain ⟨oc', hoc', hlen_j⟩ := decodeOpcode_head_of_encode hj
  obtain rfl : oc = oc' := Option.some.inj (hoc.symm.trans hoc')
  exact ⟨hlen_i.trans hlen_j.symm, by rw [hi, List.length_append], by rw [hj, List.length_append]⟩

end Sys2Proof

/-! One step with a listed opcode byte at the pc, and the rules of HLT and LDI (41_halt_load_print.md R100 and R101). -/

namespace Sys2Proof.Machine

/-- A running step at an opcode byte all of whose operand bytes lie in memory runs the instruction that stands there (R82). -/
theorem step_at_opcode {s : State} (oc : Opcode) (hs : s.status = .running) (hop : s.mem.read s.pc = oc.byte)
    (hlen : s.pc + oc.operandCount ≤ 255) : step s = exec (instrAtPc s oc) s :=
  step_of_fetch hs (fetchInstr_eq_ok_iff.mpr ⟨oc, decodeOpcode_eq_some_iff.mpr hop, hlen, rfl⟩)

/-- A running step at an opcode byte whose last operand byte has no cell raises for the one at 256 (R85). -/
theorem step_at_cut_off_opcode {s : State} (oc : Opcode) (hs : s.status = .running) (hop : s.mem.read s.pc = oc.byte)
    (hpc : s.pc ≤ 255) (hlen : 255 < s.pc + oc.operandCount) :
    step s = .next (s.raise (.outOfBounds .operand 256)) := by
  have hf := fetchInstr_of_opcode hpc (decodeOpcode_eq_some_iff.mpr hop)
  rw [if_neg (Nat.not_le.mpr hlen)] at hf
  exact step_of_fetch_error hs hf

/-- A running step with the pc past the last cell raises for the fetch (R84). -/
theorem step_past_memory {s : State} (hs : s.status = .running) (hpc : 255 < s.pc) :
    step s = .next (s.raise (.outOfBounds .fetch s.pc)) :=
  step_of_fetch_error hs (fetchInstr_past_memory hpc)

/-- `start` makes a running state of the same state halted (R90). -/
theorem start_setStatus_halted {s : State} (hs : s.status = .running) : start (s.setStatus .halted) = s := by
  cases s
  cases hs
  rfl

/-- Settles O1: HLT writes the status alone, so a later `start` gives back the state in which the HLT was executed. -/
theorem hltHaltsInPlace : Obligations.HltHaltsInPlace := by
  refine fun s => ⟨Completes.hlt.exec_eq, fun hs hpc hop => ?_⟩
  have hstep : step s = .next (s.setStatus .halted) := step_at_opcode .hlt hs hop hpc
  exact ⟨hstep, (congrArg step (start_setStatus_halted hs)).trans hstep⟩

/-- An LDI at 253 has its immediate in the last cell and leaves the pc at 256, where the next fetch raises (R27, R101). -/
theorem step_ldi_at_253 {s : State} {r : RegIdx} (hs : s.status = .running) (hop : s.mem.read s.pc = 0x82#8)
    (hpc : s.pc = 253) (hr : (s.mem.read 254).toNat = r.val) :
    ∃ t, step s = .next t ∧ t.pc = 256 ∧ step t = .next (t.raise (.outOfBounds .fetch 256)) := by
  have hb : (s.mem.read (s.pc + 1)).toNat = r.val := by rw [hpc]; exact hr
  have hlen : s.pc + Opcode.ldi.operandCount ≤ 255 := hpc ▸ Nat.le_refl 255
  obtain ⟨t, hstep, hst, hpct⟩ : ∃ t, step s = .next t ∧ t.status = s.status ∧ t.pc = 256 :=
    ⟨_, (step_at_opcode .ldi hs hop hlen).trans (Completes.ldi hb).exec_eq, rfl, congrArg (· + 3) hpc⟩
  have hnext := step_past_memory (hst.trans hs) (by omega)
  rw [hpct] at hnext
  exact ⟨t, hstep, hpct, hnext⟩

/-- Settles O2: the operand byte names a register or raises, and the pc decides whether both operand bytes lie in memory. -/
theorem ldiLoadsImmediate : Obligations.LdiLoadsImmediate := by
  refine fun s b1 b2 => ⟨fun r hr => ?_, fun hb => (Raises.ldi hb).exec_eq, fun hs hop => ⟨?_, ?_, ?_⟩⟩
  · refine ⟨_, (Completes.ldi hr).exec_eq, State.reg_setReg_same s r b2, ?_, fun j => State.reg_setReg_ne s r j b2, rfl,
      fun _ => rfl, rfl, rfl⟩
    rintro rfl
    exact State.reg_setReg_same s _ b2
  · rintro hpc rfl rfl
    exact step_at_opcode .ldi hs hop (Nat.add_le_add_right hpc 2)
  · intro hpc
    have hcut : s.pc ≤ 255 ∧ 255 < s.pc + 2 := by omega
    exact step_at_cut_off_opcode .ldi hs hop hcut.1 hcut.2
  · rintro hpc rfl hb
    obtain ⟨r, hr⟩ | hb' := register_or_above_seven (s.mem.read 254)
    · obtain ⟨t, hstep, hpct, hnext⟩ := step_ldi_at_253 hs hop hpc hr
      refine ⟨t, hstep, hpct, ?_⟩
      simpa [State.raise, State.setStatus, hpct] using hnext
    · omega

end Sys2Proof.Machine

/-! The invariant of the machine: memory, pc and fault record after a step (10_state.md section 2, 60_exceptions.md R181). -/

namespace Sys2Proof.Machine

/-- An encoding has the opcode byte and its operand bytes. -/
theorem length_encode_instrAtPc (s : State) (oc : Opcode) : (encode (instrAtPc s oc)).length = oc.operandCount + 1 := by
  cases oc <;> rfl

/-- The fetched instruction lies in memory whole. -/
theorem pc_add_length_of_fetch {s : State} {i : Instr} (h : fetchInstr s = .ok i) :
    s.pc + (encode i).length ≤ 256 := by
  obtain ⟨oc, -, hlen, rfl⟩ := fetchInstr_eq_ok_iff.mp h
  rw [length_encode_instrAtPc]
  omega

/-- Every way a fetch can raise: no cell at the pc, an unlisted opcode byte, or an operand byte without a cell (R84, R85). -/
theorem fetchInstr_error_cases {s : State} {e : Error} (h : fetchInstr s = .error e) :
    (255 < s.pc ∧ e = .outOfBounds .fetch s.pc) ∨
    (s.pc ≤ 255 ∧ decodeOpcode (s.mem.read s.pc) = none ∧ e = .unknownOpcode (s.mem.read s.pc)) ∨
    (∃ oc, s.pc ≤ 255 ∧ decodeOpcode (s.mem.read s.pc) = some oc ∧ 255 < s.pc + oc.operandCount ∧
      e = .outOfBounds .operand 256) := by
  obtain hpc | hpc := Nat.lt_or_ge 255 s.pc
  · cases (fetchInstr_past_memory hpc).symm.trans h
    exact .inl ⟨hpc, rfl⟩
  · cases hop : decodeOpcode (s.mem.read s.pc) with
    | none =>
      cases (fetchInstr_unknown hpc hop).symm.trans h
      exact .inr (.inl ⟨hpc, rfl, rfl⟩)
    | some oc =>
      rw [fetchInstr_of_opcode hpc hop] at h
      split_ifs at h with hlen
      cases h
      exact .inr (.inr ⟨oc, hpc, rfl, Nat.lt_of_not_le hlen, rfl⟩)

/-- A byte above 7 is a value that `OutOfBounds(Register)` may record (R181). -/
theorem ofCore_register {b : Byte} (h : 7 < b.toNat) : (Error.outOfBounds .register b.toNat).ofCore = true := by
  have := b.isLt
  simp only [Error.ofCore, decide_eq_true_eq]
  omega

/-- A fetch raises a CORE error, from any pc within 0..256. -/
theorem ofCore_of_fetch_error {s : State} {e : Error} (hpc : s.pc ≤ 256) (h : fetchInstr s = .error e) :
    e.ofCore = true := by
  obtain ⟨hpc', rfl⟩ | ⟨-, hop, rfl⟩ | ⟨oc, -, -, -, rfl⟩ := fetchInstr_error_cases h
  · have : s.pc = 256 := by omega
    simp [Error.ofCore, this]
  · simp [Error.ofCore, hop]
  · rfl

/-- An instruction that lies in memory whole raises a CORE error: CALL's return address is then at most 256. -/
theorem Raises.ofCore {s : State} {i : Instr} {e : Error} (hlen : s.pc + (encode i).length ≤ 256) (h : Raises s i e) :
    e.ofCore = true := by
  cases h with
  | ldi hb | prn hb | mulFirst hb | mulSecond _ hb | addFirst hb | addSecond _ hb | push hb | pop hb | call hb =>
    exact ofCore_register hb
  | pushSp | popSp | callSp | retSp => rfl
  | callReturn _ hpc =>
    have hra : s.pc + 2 = 256 := Nat.le_antisymm hlen hpc
    simp [Error.ofCore, hra]

/-- A step raises a CORE error. -/
theorem StepRaises.ofCore {s : State} {e : Error} (hpc : s.pc ≤ 256) (h : StepRaises s e) : e.ofCore = true := by
  obtain hf | ⟨i, hf, hr⟩ := h
  · exact ofCore_of_fetch_error hpc hf
  · exact hr.ofCore (pc_add_length_of_fetch hf)

/-- An instruction stores nothing, or a push stores one byte at an address that exists. -/
theorem Completes.mem_wf {s t : State} {i : Instr} (h : Completes s i t) (hwf : s.mem.wf = true) : t.mem.wf = true := by
  cases h with
  | hlt | ldi | prn | mul | add | pop | ret => exact hwf
  | push | call => exact Memory.write_wf _ hwf s.pushAddress_lt

/-- The pc advances past an instruction that lies in memory whole, or is set to a byte. -/
theorem Completes.pc_le {s t : State} {i : Instr} (h : Completes s i t) (hlen : s.pc + (encode i).length ≤ 256) :
    t.pc ≤ 256 := by
  cases h with
  | hlt => exact Nat.le_of_succ_le hlen
  | ldi | prn | mul | add | push | pop => exact hlen
  | call | ret => exact (BitVec.isLt _).le

/-- A state that is not `Faulted` has no record to check. -/
theorem recordOk_of_not_faulted {s : State} (h : s.status = .running ∨ s.status = .halted) : s.recordOk = true := by
  obtain h | h := h <;> simp [State.recordOk, h]

/-- Fault entry with a CORE error keeps the invariant: the record holds the machine's own pc. -/
theorem State.Inv.raise {s : State} {e : Error} (h : s.Inv) (he : e.ofCore = true) : (s.raise e).Inv :=
  have ⟨hwf, hpc, _⟩ := h
  ⟨hwf, hpc, by simp [State.recordOk, he]⟩

/-- Settles O25: the fetched instruction completes within memory, or the step takes fault entry with a CORE error. -/
theorem stepKeepsInvariant : Obligations.StepKeepsInvariant := by
  intro s t hinv hstep
  have ⟨hwf, hpc, _⟩ := hinv
  obtain ⟨hs, ⟨i, hf, hc⟩ | ⟨e, hr, rfl⟩⟩ := step_eq_next_iff.mp hstep
  · have hst : t.status = .running ∨ t.status = .halted := hc.status_eq.imp (·.trans hs) And.right
    exact ⟨hc.mem_wf hwf, hc.pc_le (pc_add_length_of_fetch hf), recordOk_of_not_faulted hst⟩
  · exact hinv.raise (hr.ofCore hpc)

end Sys2Proof.Machine

/-! Decode and encode in both directions. -/

namespace Sys2Proof

/-- Settles O30: the decoder undoes the encoder and reads nothing but encodings. -/
theorem decodeAndEncodeAgree : Obligations.DecodeAndEncodeAgree :=
  ⟨decode_encode_append, fun _ _ _ => eq_encode_append_of_decode⟩

end Sys2Proof

/-! The ways a step raises (40_engine.md R82 to R86, 60_exceptions.md R183, R185, R190). -/

namespace Sys2Proof.Machine

/-- Every way the decoder, shown the bytes from the pc on, finds no instruction: each is one of the fetch's ways to raise. -/
theorem decode_bytesFromPc_error_cases {s : State} {rj : Reject} (h : decode s.bytesFromPc = .error rj) :
    (255 < s.pc ∧ rj = .noByte) ∨
    (s.pc ≤ 255 ∧ decodeOpcode (s.mem.read s.pc) = none ∧ rj = .unknownOpcode (s.mem.read s.pc)) ∨
    (∃ oc, s.pc ≤ 255 ∧ decodeOpcode (s.mem.read s.pc) = some oc ∧ 255 < s.pc + oc.operandCount ∧
      rj = .truncated oc) := by
  obtain hpc | hpc := Nat.lt_or_ge 255 s.pc
  · rw [State.bytesFromPc_nil hpc] at h
    cases h
    exact .inl ⟨hpc, rfl⟩
  · cases hop : decodeOpcode (s.mem.read s.pc) with
    | none =>
      rw [State.bytesFromPc_cons hpc, decode_of_unlisted hop] at h
      cases h
      exact .inr (.inl ⟨hpc, rfl, rfl⟩)
    | some oc =>
      rw [decode_bytesFromPc_of_opcode hpc hop] at h
      split_ifs at h with hlen
      cases h
      exact .inr (.inr ⟨oc, hpc, rfl, Nat.lt_of_not_le hlen, rfl⟩)

/-- Settles O14: the decoder and the fetch fail at the same bytes for the same reason. -/
theorem stepRaisesWhereNothingDecodes : Obligations.StepRaisesWhereNothingDecodes := by
  refine fun s hs => ⟨step_past_memory hs, fun op h => ?_, fun oc h => ?_⟩
  · obtain ⟨-, ⟨⟩⟩ | ⟨hpc, hop, ⟨⟩⟩ | ⟨_, -, -, -, ⟨⟩⟩ := decode_bytesFromPc_error_cases h
    exact ⟨rfl, step_of_fetch_error hs (fetchInstr_unknown hpc hop)⟩
  · obtain ⟨-, ⟨⟩⟩ | ⟨-, -, ⟨⟩⟩ | ⟨_, hpc, hop, hlen, ⟨⟩⟩ := decode_bytesFromPc_error_cases h
    exact step_at_cut_off_opcode oc hs (decodeOpcode_eq_some_iff.mp hop) hpc hlen

/-- The execution of an instruction always answers a next state. -/
theorem exists_exec (i : Instr) (s : State) : ∃ t, exec i s = .next t := by
  obtain ⟨t, ht⟩ | ⟨e, he⟩ := completes_or_raises i s
  · exact ⟨t, ht.exec_eq⟩
  · exact ⟨_, he.exec_eq⟩

/-- Settles O15: a step looks at the status first, and no instruction's execution stops. -/
theorem stepExistsExactlyWhenRunning : Obligations.StepExistsExactlyWhenRunning :=
  ⟨fun _ => ⟨fun ⟨_, h⟩ => (step_eq_next_iff.mp h).1, exists_step_of_running⟩, fun _ => step_halted,
    fun _ _ => step_faulted, exists_exec⟩

/-- A step into `Faulted` is fault entry with the recorded error. -/
theorem eq_raise_of_step_faults {s t : State} {e : FaultRecord} (h : step s = .next t) (ht : t.status = .faulted e) :
    StepRaises s e.error ∧ t = s.raise e.error ∧ e.pc = s.pc := by
  obtain ⟨err, hr, rfl⟩ := step_faults h ht
  cases ht
  exact ⟨hr, rfl, rfl⟩

/-- Settles O17: a step into `Faulted` is fault entry, which writes the status alone. -/
theorem faultEntryIsPrecise : Obligations.FaultEntryIsPrecise := by
  intro s t e _ hstep ht
  obtain ⟨-, rfl, hpc⟩ := eq_raise_of_step_faults hstep ht
  exact ⟨congrArg s.setStatus ht, hpc⟩

/-- What stands at an opcode byte raises only what R183's table lists for the opcode. -/
theorem Raises.mayRaise {s : State} {oc : Opcode} {e : Error} (h : Raises s (instrAtPc s oc) e) :
    mayRaise oc e = true := by
  cases oc with
  | hlt | ldi | prn | mul | add | push | pop | call | ret => cases h <;> rfl

/-- A cut-off instruction has operand bytes, and R183's table lists the raise for them. -/
theorem mayRaise_operand {oc : Opcode} (h : oc.operandCount ≠ 0) (v : Int) :
    mayRaise oc (.outOfBounds .operand v) = true := by
  cases oc with
  | hlt | ret => exact absurd rfl h
  | ldi | prn | mul | add | push | pop | call => rfl

/-- Settles O18: the fetch raises for the pc, the opcode byte or an operand byte, and the rest is R183's table. -/
theorem stepRaisesOnlyListedErrors : Obligations.StepRaisesOnlyListedErrors := by
  intro s t e _ hstep ht
  obtain ⟨hr, -, -⟩ := eq_raise_of_step_faults hstep ht
  obtain hf | ⟨i, hf, hr⟩ := hr
  · obtain ⟨hpc, he⟩ | ⟨-, hop, he⟩ | ⟨oc, hpc, hop, hlen, he⟩ := fetchInstr_error_cases hf
    · exact .inl ⟨hpc, he⟩
    · exact .inr (.inl ⟨hop, he⟩)
    · exact .inr (.inr ⟨oc, hop, he ▸ mayRaise_operand (by omega) 256⟩)
  · obtain ⟨oc, hop, -, rfl⟩ := fetchInstr_eq_ok_iff.mp hf
    exact .inr (.inr ⟨oc, hop, hr.mayRaise⟩)

end Sys2Proof.Machine

/-! What each instruction does where it completes: its result and its frame (41_halt_load_print.md, 42_alu.md, 43_stack.md,
44_call_return.md). -/

namespace Sys2Proof.Machine

/-- The state after a push of `v`, as `pushValue_ok` gives it (R140). -/
def State.pushed (s : State) (v : Byte) : State :=
  (s.setReg Config.spIndex (s.sp - 1#8)).memWrite s.pushAddress v

/-- The state after a pop, as `popValue_ok` gives it (R141). -/
def State.popped (s : State) : State := s.setReg Config.spIndex (s.sp + 1#8)

theorem State.sp_pushed (s : State) (v : Byte) : (s.pushed v).sp = s.sp - 1#8 := by simp [State.pushed]

theorem State.reg_pushed_ne (s : State) (v : Byte) {j : RegIdx} (h : j ≠ Config.spIndex) :
    (s.pushed v).reg j = s.reg j := by simp [State.pushed, h]

theorem State.toNat_sp_pushed {s : State} (v : Byte) (h : s.sp ≠ 0#8) : (s.pushed v).sp.toNat = s.pushAddress := by
  rw [State.sp_pushed, State.toNat_sp_sub_one h]

theorem State.read_pushed_same {s : State} (v : Byte) (hwf : s.mem.wf = true) :
    (s.pushed v).mem.read s.pushAddress = v := Memory.read_write_same v hwf

theorem State.read_pushed_ne (s : State) (v : Byte) {a : Nat} (h : a ≠ s.pushAddress) :
    (s.pushed v).mem.read a = s.mem.read a := Memory.read_write_ne s.mem v h

theorem State.sp_popped (s : State) : s.popped.sp = s.sp + 1#8 := State.reg_setReg_same s _ _

theorem State.reg_popped_ne (s : State) {j : RegIdx} (h : j ≠ Config.spIndex) : s.popped.reg j = s.reg j :=
  State.reg_setReg_ne s _ _ _ h

theorem State.toNat_sp_popped {s : State} (h : s.sp ≠ 255#8) : s.popped.sp.toNat = s.sp.toNat + 1 := by
  rw [State.sp_popped, sp_add_one_toNat h]

theorem exec_push {s : State} {b : Byte} {r : RegIdx} (hr : b.toNat = r.val) (hsp : s.sp ≠ 0#8) :
    exec (.push b) s = .next ((s.pushed (s.reg r)).advance 2) := (Completes.push hr hsp).exec_eq

theorem exec_pop {s : State} {b : Byte} {r : RegIdx} (hr : b.toNat = r.val) (hsp : s.sp ≠ 255#8) :
    exec (.pop b) s = .next ((s.popped.setReg r (s.mem.read s.sp.toNat)).advance 2) := (Completes.pop hr hsp).exec_eq

theorem exec_call {s : State} {b : Byte} {r : RegIdx} (hr : b.toNat = r.val) (hpc : s.pc + 2 ≤ 255) (hsp : s.sp ≠ 0#8) :
    exec (.call b) s = .next ((s.pushed (BitVec.ofNat 8 (s.pc + 2))).setPc (s.reg r).toNat) :=
  (Completes.call hr hpc hsp).exec_eq

theorem exec_ret {s : State} (hsp : s.sp ≠ 255#8) :
    exec .ret s = .next (s.popped.setPc (s.mem.read s.sp.toNat).toNat) := (Completes.ret hsp).exec_eq

/-- Settles O3: PRN completes as an `emit` of the register's value. -/
theorem prnEmitsOneValue : Obligations.PrnEmitsOneValue := fun _ _ _ hr =>
  ⟨_, (Completes.prn hr).exec_eq, rfl, rfl, fun _ => rfl, fun _ => rfl, rfl⟩

/-- A register written with an exact result holds it mod 256 (R124). -/
theorem State.toNat_reg_setReg_ofNat (s : State) (a : RegIdx) (n : Nat) :
    ((s.setReg a (BitVec.ofNat 8 n)).reg a).toNat = n % 256 := by
  rw [State.reg_setReg_same, BitVec.toNat_ofNat]

/-- Settles O4: MUL completes as a write of the exact product. -/
theorem mulMultipliesModulo256 : Obligations.MulMultipliesModulo256 := fun s _ _ a _ ha hb =>
  ⟨_, (Completes.mul ha hb).exec_eq, s.toNat_reg_setReg_ofNat a _, fun j => State.reg_setReg_ne s a j _, rfl,
    fun _ => rfl, rfl, rfl⟩

/-- Settles O5: ADD completes as a write of the exact sum. -/
theorem addAddsModulo256 : Obligations.AddAddsModulo256 := fun s _ _ a _ ha hb =>
  ⟨_, (Completes.add ha hb).exec_eq, s.toNat_reg_setReg_ofNat a _, fun j => State.reg_setReg_ne s a j _, rfl,
    fun _ => rfl, rfl, rfl⟩

/-- Settles O6: PUSH completes as a push of the register's value. -/
theorem pushStoresBelowStackPointer : Obligations.PushStoresBelowStackPointer := fun s _ r hwf hr hsp =>
  ⟨_, exec_push hr hsp, State.toNat_sp_pushed (s.reg r) hsp, fun _ => s.reg_pushed_ne (s.reg r), rfl, rfl,
    State.read_pushed_same (s.reg r) hwf, fun _ => s.read_pushed_ne (s.reg r), rfl, rfl⟩

/-- Settles O7: POP writes its destination over the state after the pop, where SP has moved up already. -/
theorem popLoadsThenWritesDestination : Obligations.PopLoadsThenWritesDestination := by
  refine fun s b r hr hsp => ⟨_, exec_pop hr hsp, State.reg_setReg_same s.popped r _, fun hne => ?_,
    fun j hj hjsp => ?_, rfl, fun _ => rfl, rfl, rfl⟩
  · exact (congrArg BitVec.toNat (State.reg_setReg_ne s.popped r _ _ hne.symm)).trans (State.toNat_sp_popped hsp)
  · exact (State.reg_setReg_ne s.popped r j _ hj).trans (s.reg_popped_ne hjsp)

/-- Settles O8: CALL completes as a push of the return address, which fits a byte. -/
theorem callPushesReturnAddress : Obligations.CallPushesReturnAddress := by
  refine fun s b r hwf hr hpc hsp => ?_
  have hra : s.pc + 2 ≤ 255 := by omega
  let ra := BitVec.ofNat 8 (s.pc + 2)
  have hret : ra.toNat = s.pc + 2 := Nat.mod_eq_of_lt (Nat.lt_succ_of_le hra)
  exact ⟨_, exec_call hr hra hsp, rfl, State.toNat_sp_pushed ra hsp, fun _ => s.reg_pushed_ne ra, rfl,
    (congrArg BitVec.toNat (State.read_pushed_same ra hwf)).trans hret, fun _ => s.read_pushed_ne ra, rfl, rfl⟩

/-- Settles O9: RET completes as a pop into the pc. -/
theorem retPopsProgramCounter : Obligations.RetPopsProgramCounter := fun s hsp =>
  ⟨_, exec_ret hsp, rfl, State.toNat_sp_popped hsp, fun _ => s.reg_popped_ne, fun _ => rfl, rfl, rfl⟩

end Sys2Proof.Machine

/-! Where an instruction raises (40_engine.md R86, 43_stack.md section 1, 44_call_return.md R160). -/

namespace Sys2Proof.Machine

theorem exists_register_of_le_seven {b : Byte} (h : b.toNat ≤ 7) : ∃ r : RegIdx, b.toNat = r.val :=
  ⟨⟨b.toNat, Nat.lt_succ_of_le h⟩, rfl⟩

/-- Settles O10: a bad first register byte raises before anything else is looked at, and a bad second one after a good
first. -/
theorem registerByteAboveSevenRaises : Obligations.RegisterByteAboveSevenRaises := by
  refine fun s b hb => ⟨fun _ => (Raises.ldi hb).exec_eq, (Raises.prn hb).exec_eq, (Raises.push hb).exec_eq,
    (Raises.pop hb).exec_eq, (Raises.call hb).exec_eq,
    fun _ => ⟨(Raises.mulFirst hb).exec_eq, (Raises.addFirst hb).exec_eq⟩, fun b1 hb1 => ?_⟩
  obtain ⟨a, ha⟩ := exists_register_of_le_seven hb1
  exact ⟨(Raises.mulSecond ha hb).exec_eq, (Raises.addSecond ha hb).exec_eq⟩

/-- Settles O11: SP is checked last, after the register operand and CALL's return address. -/
theorem stackPointerLimitsRaise : Obligations.StackPointerLimitsRaise := by
  intro s b hb
  obtain ⟨r, hr⟩ := exists_register_of_le_seven hb
  exact ⟨fun hsp => ⟨(Raises.pushSp hr hsp).exec_eq,
      fun hpc => (Raises.callSp hr (Nat.add_le_add_right hpc 2) hsp).exec_eq⟩,
    fun hsp => ⟨(Raises.popSp hr hsp).exec_eq, (Raises.retSp hsp).exec_eq⟩⟩

/-- Settles O12: the return address is checked before SP is. -/
theorem callAtTheTopRaisesReturnAddress : Obligations.CallAtTheTopRaisesReturnAddress := by
  intro s b hb hpc
  obtain ⟨r, hr⟩ := exists_register_of_le_seven hb
  rw [(Raises.callReturn hr (by omega)).exec_eq]
  simp [State.raise, State.setStatus, hpc]

/-- Settles O13: the fetch reads the instruction that the decoder reads. -/
theorem stepRunsTheDecodedInstruction : Obligations.StepRunsTheDecodedInstruction :=
  fun _ _ _ hs h => step_of_fetch hs (fetchInstr_of_decode h)

theorem regOperandOk_of_register {b : Byte} {r : RegIdx} (h : b.toNat = r.val) : regOperandOk b = true := by
  simp only [regOperandOk, decide_eq_true_eq]
  omega

theorem regOperandOk_of_above_seven {b : Byte} (h : 7 < b.toNat) : regOperandOk b = false := by
  simpa [regOperandOk] using h

/-- An instruction that completes has operand bytes that name registers. -/
theorem Completes.wellFormed {s t : State} {i : Instr} (h : Completes s i t) : i.wellFormed = true := by
  cases h with
  | hlt | ret => rfl
  | ldi hr | prn hr | push hr | pop hr | call hr => exact regOperandOk_of_register hr
  | mul ha hb | add ha hb => simp [Instr.wellFormed, regOperandOk_of_register ha, regOperandOk_of_register hb]

/-- An instruction raises on a register operand exactly if it is ill-formed. -/
theorem Raises.wellFormed_eq_false_iff {s : State} {i : Instr} {e : Error} (h : Raises s i e) :
    i.wellFormed = false ↔ ∃ b : Byte, 7 < b.toNat ∧ e = .outOfBounds .register b.toNat := by
  cases h with
  | ldi hb | prn hb | mulFirst hb | mulSecond _ hb | addFirst hb | addSecond _ hb | push hb | pop hb | call hb =>
    simpa [Instr.wellFormed, regOperandOk_of_above_seven hb] using ⟨_, hb, rfl⟩
  | pushSp hr | popSp hr | callReturn hr | callSp hr => simp [Instr.wellFormed, regOperandOk_of_register hr]
  | retSp => simp [Instr.wellFormed]

/-- Settles O36: an instruction that completes is well-formed, and one that raises is ill-formed exactly if a register
operand did. -/
theorem illFormedExactlyWhenRegisterRaises : Obligations.IllFormedExactlyWhenRegisterRaises := by
  intro i s hs
  obtain ⟨t, hc⟩ | ⟨e, hr⟩ := completes_or_raises i s
  · refine ⟨fun hw => absurd hc.wellFormed (by simp [hw]), fun ⟨b, hb, h⟩ => ?_⟩
    rw [hc.exec_eq] at h
    cases h
    obtain hk | ⟨-, hk⟩ := hc.status_eq <;> simp [hs] at hk
  · rw [hr.wellFormed_eq_false_iff, hr.exec_eq]
    simp [State.raise, State.setStatus]

end Sys2Proof.Machine

/-! What an instruction may write (10_state.md R22, 20_memory.md section 2, 10_state.md R27). -/

namespace Sys2Proof.Machine

/-- An instruction that completes writes no register but those that R22's table lists. -/
theorem Completes.reg_of_not_mayWrite {s t : State} {i : Instr} {j : RegIdx} (h : Completes s i t)
    (hw : mayWrite i j = false) : t.reg j = s.reg j := by
  cases h with
  | hlt | prn => rfl
  | ldi hr | mul hr | add hr =>
    refine State.reg_setReg_ne s _ _ _ ?_
    rintro rfl
    simp [mayWrite, hr] at hw
  | push | call => exact State.reg_setReg_ne s _ j _ (by simpa [mayWrite] using hw)
  | ret => exact s.reg_popped_ne (by simpa [mayWrite] using hw)
  | pop hr =>
    simp only [mayWrite, decide_eq_false_iff_not, not_or] at hw
    obtain ⟨hj, hjsp⟩ := hw
    refine (State.reg_setReg_ne s.popped _ _ _ ?_).trans (s.reg_popped_ne hjsp)
    rintro rfl
    exact hj hr

/-- Settles O21: an instruction completes and keeps the registers not listed, or raises and keeps all of them. -/
theorem registersChangeOnlyAsListed : Obligations.RegistersChangeOnlyAsListed := by
  intro i s t j h hw
  obtain hc | ⟨e, -, rfl⟩ := exec_eq_next_iff.mp h
  · exact hc.reg_of_not_mayWrite hw
  · rfl

/-- An instruction that completes leaves memory alone, or is PUSH or CALL and stores at the new SP alone. -/
theorem Completes.mem_cases {s t : State} {i : Instr} (h : Completes s i t) :
    t.mem = s.mem ∨
    ((∃ b, i = .push b ∨ i = .call b) ∧ s.sp ≠ 0#8 ∧
      ∀ a, a ≠ s.pushAddress → t.mem.read a = s.mem.read a) := by
  cases h with
  | hlt | ldi | prn | mul | add | pop | ret => exact .inl rfl
  | push _ hsp => exact .inr ⟨⟨_, .inl rfl⟩, hsp, fun _ => s.read_pushed_ne _⟩
  | call _ _ hsp => exact .inr ⟨⟨_, .inr rfl⟩, hsp, fun _ => s.read_pushed_ne _⟩

/-- Settles O22: only a push stores, and a raise keeps memory. -/
theorem onlyPushAndCallStore : Obligations.OnlyPushAndCallStore := by
  intro i s t a h hne
  obtain hc | ⟨e, -, rfl⟩ := exec_eq_next_iff.mp h
  · obtain hmem | ⟨hi, hsp, hframe⟩ := hc.mem_cases
    · exact absurd (congrArg (·.read a) hmem) hne
    · exact ⟨hi, of_not_not fun ha => hne (hframe a ha), hsp⟩
  · exact absurd rfl hne

/-- The opcode byte at the pc decides which instruction is fetched. -/
theorem eq_instrAtPc_of_fetch {s : State} {i : Instr} {oc : Opcode} (hf : fetchInstr s = .ok i)
    (hop : s.mem.read s.pc = oc.byte) : i = instrAtPc s oc := by
  obtain ⟨oc', hop', -, rfl⟩ := fetchInstr_eq_ok_iff.mp hf
  rw [decodeOpcode_eq_some_iff.mpr hop] at hop'
  cases hop'
  rfl

/-- CALL and RET set the pc to a byte. -/
theorem Completes.pc_le_of_jump {s t : State} {oc : Opcode} (hoc : oc = .call ∨ oc = .ret)
    (h : Completes s (instrAtPc s oc) t) : t.pc ≤ 255 := by
  obtain rfl | rfl := hoc <;> cases h <;> exact Nat.le_of_lt_succ (BitVec.isLt _)

/-- Settles O24: CALL and RET set the pc to a byte, or raise and leave it. -/
theorem callAndRetKeepPcWithinMemory : Obligations.CallAndRetKeepPcWithinMemory := by
  intro s t _ hpc hop hstep
  obtain ⟨oc, hoc, hop⟩ : ∃ oc : Opcode, (oc = .call ∨ oc = .ret) ∧ s.mem.read s.pc = oc.byte :=
    hop.elim (⟨.call, .inl rfl, ·⟩) (⟨.ret, .inr rfl, ·⟩)
  obtain ⟨-, ⟨i, hf, hc⟩ | ⟨e, -, rfl⟩⟩ := step_eq_next_iff.mp hstep
  · obtain rfl := eq_instrAtPc_of_fetch hf hop
    exact hc.pc_le_of_jump hoc
  · exact hpc

end Sys2Proof.Machine

/-! Instructions one after another: a pop undoes a push (43_stack.md section 1, 44_call_return.md,
30_encoding.md section 5). -/

namespace Sys2Proof.Machine

/-- After a push there is a byte to pop. -/
theorem State.sp_pushed_ne {s : State} (v : Byte) (h : s.sp ≠ 0#8) : (s.pushed v).sp ≠ 255#8 := by
  intro hsp
  have haddr := State.toNat_sp_pushed v h
  have := s.sp.isLt
  simp only [hsp, State.pushAddress, BitVec.toNat_ofNat] at haddr
  omega

/-- A pop moves SP back to where it was before the push. -/
theorem State.sp_pushed_add_one (s : State) (v : Byte) : (s.pushed v).sp + 1#8 = s.sp := by
  rw [State.sp_pushed, BitVec.sub_add_cancel]

/-- A push leaves its value at the SP it leaves. -/
theorem State.read_sp_pushed {s : State} (v : Byte) (hwf : s.mem.wf = true) (h : s.sp ≠ 0#8) :
    (s.pushed v).mem.read (s.pushed v).sp.toNat = v := by
  rw [State.toNat_sp_pushed v h, State.read_pushed_same v hwf]

/-- Settles O37: POP reads what PUSH stored, and moves SP back unless it writes it. -/
theorem stackRoundTrip : Obligations.StackRoundTrip := by
  intro s b c r q hwf hr hq hsp
  let t := (s.pushed (s.reg r)).advance 2
  have hne : t.sp ≠ 255#8 := State.sp_pushed_ne (s.reg r) hsp
  refine ⟨t, _, exec_push hr hsp, exec_pop hq hne, ?_, fun hqsp => ?_⟩
  · exact (State.reg_setReg_same t.popped q _).trans (State.read_sp_pushed _ hwf hsp)
  · calc
      (t.popped.setReg q _).sp = t.popped.sp := State.reg_setReg_ne t.popped q _ _ hqsp.symm
      _ = t.sp + 1#8 := t.sp_popped
      _ = s.sp := s.sp_pushed_add_one (s.reg r)

/-- Settles O38: RET pops the return address that CALL pushed. -/
theorem callRetRoundTrip : Obligations.CallRetRoundTrip := by
  intro s b r hwf hr hpc hsp
  have hra : s.pc + 2 ≤ 255 := Nat.add_le_add_right hpc 2
  refine ⟨_, exec_call hr hra hsp, rfl, fun u husp hread => ?_⟩
  have husp : u.sp = (s.pushed (BitVec.ofNat 8 (s.pc + 2))).sp := husp
  have hne : u.sp ≠ 255#8 := husp ▸ State.sp_pushed_ne _ hsp
  refine ⟨_, exec_ret hne, ?_, ?_⟩
  · rw [State.pc_setPc, hread]
    exact Completes.call_return_address hwf (.call hr hra hsp)
  · rw [State.sp_setPc, State.sp_popped, husp, State.sp_pushed_add_one]

/-- Settles O39: RET pops what PUSH stored into the pc. -/
theorem pushRetIsAComputedJump : Obligations.PushRetIsAComputedJump := by
  intro s b r hwf hr hsp
  let t := (s.pushed (s.reg r)).advance 2
  have hne : t.sp ≠ 255#8 := State.sp_pushed_ne (s.reg r) hsp
  exact ⟨t, _, exec_push hr hsp, exec_ret hne, congrArg BitVec.toNat (State.read_sp_pushed _ hwf hsp),
    t.sp_popped.trans (s.sp_pushed_add_one (s.reg r))⟩

/-- Settles O40: PRN emits what LDI wrote. -/
theorem ldiThenPrnEmitsTheValue : Obligations.LdiThenPrnEmitsTheValue := by
  refine fun s b v r hr => ⟨_, _, (Completes.ldi hr).exec_eq, (Completes.prn hr).exec_eq, ?_⟩
  simp

/-- A running step at an opcode byte that is none raises `UnknownOpcode` (R84). -/
theorem step_at_unlisted {s : State} (hs : s.status = .running) (hpc : s.pc ≤ 255)
    (hop : decodeOpcode (s.mem.read s.pc) = none) : step s = .next (s.raise (.unknownOpcode (s.mem.read s.pc))) :=
  step_of_fetch_error hs (fetchInstr_unknown hpc hop)

/-- A running step at a PUSH whose operand byte names `r` pushes the value of `r`. -/
theorem step_push {s : State} {r : RegIdx} (hs : s.status = .running) (hop : s.mem.read s.pc = 0x45#8)
    (hlen : s.pc + 1 ≤ 255) (hr : (s.mem.read (s.pc + 1)).toNat = r.val) (hsp : s.sp ≠ 0#8) :
    step s = .next ((s.pushed (s.reg r)).advance 2) :=
  (step_at_opcode .push hs hop hlen).trans (exec_push hr hsp)

/-- Settles O41: the push address is the pc after the PUSH, or the address of its own operand byte. -/
theorem nextFetchSeesTheStoredByte : Obligations.NextFetchSeesTheStoredByte := by
  intro s r hwf hs hop hr
  have hlt := s.sp.isLt
  have hstep (hsp : s.pc + 2 ≤ s.sp.toNat) : step s = .next ((s.pushed (s.reg r)).advance 2) := by
    refine step_push hs hop (by omega) hr fun h0 => ?_
    simp [h0] at hsp
  have hread {a : Nat} (ha : s.sp.toNat = a + 1) : (s.pushed (s.reg r)).mem.read a = s.reg r := by
    have haddr : s.pushAddress = a := by rw [State.pushAddress, ha, Nat.add_sub_cancel]
    rw [← haddr, State.read_pushed_same _ hwf]
  refine ⟨fun hsp => ?_, fun hsp => ⟨_, hstep (by omega), hs, rfl, hread hsp⟩⟩
  let t := (s.pushed (s.reg r)).advance 2
  have hpc : t.pc ≤ 255 := show s.pc + 2 ≤ 255 by omega
  have hfetch : t.mem.read t.pc = s.reg r := hread hsp
  refine ⟨t, hstep (by omega), rfl, ?_, fun hop' => ?_, fun hop' => ?_⟩
  · rw [State.bytesFromPc_cons hpc, hfetch, List.head?_cons]
  · rw [← hfetch] at hop' ⊢
    exact step_at_unlisted hs hpc hop'
  · exact (step_at_opcode (s := t) .hlt hs (hfetch.trans hop') hpc).trans Completes.hlt.exec_eq

end Sys2Proof.Machine

/-! The order of the checks of one step (60_exceptions.md R185): the list of checks finds the error that the step raises. -/

namespace Sys2Proof.Machine

/-- The list of opcode bytes (R84) is the decoder's. -/
theorem isSome_decodeOpcode_iff {op : Byte} : (decodeOpcode op).isSome = true ↔ op ∈ listedOpcodes := by
  constructor
  · intro h
    obtain ⟨oc, hoc⟩ := Option.isSome_iff_exists.mp h
    exact decodeOpcode_eq_some_iff.mp hoc ▸ oc.byte_mem_listedOpcodes
  · intro h
    simp only [listedOpcodes, List.mem_cons, List.not_mem_nil, or_false] at h
    rcases h with rfl | rfl | rfl | rfl | rfl | rfl | rfl | rfl | rfl <;> rfl

/-- The error of the first check of a list that fails; `firstFault` is this of `stepChecks`. -/
def firstOf (checks : List (Bool × Error)) : Option Error := (checks.find? (·.1)).map (·.2)

theorem firstFault_eq_firstOf (s : State) : firstFault s = firstOf (stepChecks s) := rfl

theorem firstOf_nil : firstOf [] = none := rfl

theorem firstOf_cons (c : Bool) (e : Error) (checks : List (Bool × Error)) :
    firstOf ((c, e) :: checks) = if c = true then some e else firstOf checks := by
  cases c <;> rfl

/-- The checks after the operand fetch: both register operands, the return address, and SP at each of its limits. -/
def execChecks (s : State) : List (Bool × Error) := (stepChecks s).drop 4

/-- The four checks up to the operand fetch, in the terms of the decoder, and then those after it. -/
theorem firstFault_of_opcode {s : State} {oc : Opcode} (hop : s.mem.read s.pc = oc.byte) :
    firstFault s =
      if 255 < s.pc then some (.outOfBounds .fetch s.pc)
      else if 1 ≤ oc.operandCount ∧ 255 < s.pc + 1 then some (.outOfBounds .operand (s.pc + 1 : Nat))
      else if 2 ≤ oc.operandCount ∧ 255 < s.pc + 2 then some (.outOfBounds .operand (s.pc + 2 : Nat))
      else firstOf (execChecks s) := by
  have hlisted : oc.byte ∈ listedOpcodes := oc.byte_mem_listedOpcodes
  have hone : oc.byte ∈ twoByteOpcodes ++ threeByteOpcodes ↔ 1 ≤ oc.operandCount := by cases oc <;> decide
  have htwo : oc.byte ∈ threeByteOpcodes ↔ 2 ≤ oc.operandCount := by cases oc <;> decide
  simp only [firstFault_eq_firstOf, execChecks, stepChecks, List.drop, firstOf_cons, hop, hlisted, hone, htwo,
    decide_eq_true_eq, not_true_eq_false, if_false, gt_iff_lt]

theorem firstFault_past_memory {s : State} (hpc : 255 < s.pc) : firstFault s = some (.outOfBounds .fetch s.pc) := by
  simp [firstFault_eq_firstOf, stepChecks, firstOf_cons, hpc]

theorem firstFault_unknown {s : State} (hpc : s.pc ≤ 255) (hop : decodeOpcode (s.mem.read s.pc) = none) :
    firstFault s = some (.unknownOpcode (s.mem.read s.pc)) := by
  have hunlisted : s.mem.read s.pc ∉ listedOpcodes := by simp [← isSome_decodeOpcode_iff, hop]
  simp [firstFault_eq_firstOf, stepChecks, firstOf_cons, hunlisted, Nat.not_lt.mpr hpc]

theorem firstFault_cut_off {s : State} {oc : Opcode} (hpc : s.pc ≤ 255) (hop : s.mem.read s.pc = oc.byte)
    (hlen : 255 < s.pc + oc.operandCount) : firstFault s = some (.outOfBounds .operand 256) := by
  rw [firstFault_of_opcode hop, if_neg (Nat.not_lt.mpr hpc)]
  obtain h | h : s.pc = 255 ∨ s.pc = 254 := by
    obtain h | h | h := oc.operandCount_cases <;> omega
  · have hone : 1 ≤ oc.operandCount := by omega
    simp [h, hone]
  · have htwo : 2 ≤ oc.operandCount := by omega
    simp [h, htwo]

/-- An instruction that lies in memory whole passes the checks up to the operand fetch. -/
theorem firstFault_of_whole {s : State} {oc : Opcode} (hop : s.mem.read s.pc = oc.byte)
    (hlen : s.pc + oc.operandCount ≤ 255) : firstFault s = firstOf (execChecks s) := by
  rw [firstFault_of_opcode hop, if_neg (by omega), if_neg (by omega), if_neg (by omega)]

theorem not_above_seven {b : Byte} {r : RegIdx} (h : b.toNat = r.val) : ¬ 7 < b.toNat := by omega

/-- The checks after the operand fetch find the error that the instruction at the pc raises. -/
theorem firstOf_execChecks_of_raises {s : State} {oc : Opcode} {e : Error} (hop : s.mem.read s.pc = oc.byte)
    (h : Raises s (instrAtPc s oc) e) : firstOf (execChecks s) = some e := by
  simp only [execChecks, stepChecks, List.drop, firstOf_cons, firstOf_nil, hop, twoByteOpcodes, threeByteOpcodes]
  cases oc with
  | hlt => cases h
  | ldi =>
    cases h with
    | ldi hb => simp [Opcode.byte, hb]
  | prn =>
    cases h with
    | prn hb => simp [Opcode.byte, hb]
  | mul =>
    cases h with
    | mulFirst hb => simp [Opcode.byte, hb]
    | mulSecond ha hb => simp [Opcode.byte, not_above_seven ha, hb]
  | add =>
    cases h with
    | addFirst hb => simp [Opcode.byte, hb]
    | addSecond ha hb => simp [Opcode.byte, not_above_seven ha, hb]
  | push =>
    cases h with
    | push hb => simp [Opcode.byte, hb]
    | pushSp hr hsp => simp [Opcode.byte, not_above_seven hr, hsp]
  | pop =>
    cases h with
    | pop hb => simp [Opcode.byte, hb]
    | popSp hr hsp => simp [Opcode.byte, not_above_seven hr, hsp]
  | call =>
    cases h with
    | call hb => simp [Opcode.byte, hb]
    | callReturn hr hpc => simp [Opcode.byte, not_above_seven hr, hpc]
    | callSp hr hpc hsp => simp [Opcode.byte, not_above_seven hr, Nat.not_lt.mpr hpc, hsp]
  | ret =>
    cases h with
    | retSp hsp => simp [Opcode.byte, hsp]

/-- The checks after the operand fetch find nothing where the instruction at the pc completes. -/
theorem firstOf_execChecks_of_completes {s t : State} {oc : Opcode} (hop : s.mem.read s.pc = oc.byte)
    (h : Completes s (instrAtPc s oc) t) : firstOf (execChecks s) = none := by
  simp only [execChecks, stepChecks, List.drop, firstOf_cons, firstOf_nil, hop, twoByteOpcodes, threeByteOpcodes]
  cases oc with
  | hlt => simp [Opcode.byte]
  | ldi =>
    cases h with
    | ldi hr => simp [Opcode.byte, not_above_seven hr]
  | prn =>
    cases h with
    | prn hr => simp [Opcode.byte, not_above_seven hr]
  | mul =>
    cases h with
    | mul ha hb => simp [Opcode.byte, not_above_seven ha, not_above_seven hb]
  | add =>
    cases h with
    | add ha hb => simp [Opcode.byte, not_above_seven ha, not_above_seven hb]
  | push =>
    cases h with
    | push hr hsp => simp [Opcode.byte, not_above_seven hr, hsp]
  | pop =>
    cases h with
    | pop hr hsp => simp [Opcode.byte, not_above_seven hr, hsp]
  | call =>
    cases h with
    | call hr hpc hsp => simp [Opcode.byte, not_above_seven hr, Nat.not_lt.mpr hpc, hsp]
  | ret =>
    cases h with
    | ret hsp => simp [Opcode.byte, hsp]

theorem StepRaises.firstFault_eq_some {s : State} {e : Error} (h : StepRaises s e) : firstFault s = some e := by
  obtain hf | ⟨i, hf, hr⟩ := h
  · obtain ⟨hpc, rfl⟩ | ⟨hpc, hop, rfl⟩ | ⟨oc, hpc, hop, hlen, rfl⟩ := fetchInstr_error_cases hf
    · exact firstFault_past_memory hpc
    · exact firstFault_unknown hpc hop
    · exact firstFault_cut_off hpc (decodeOpcode_eq_some_iff.mp hop) hlen
  · obtain ⟨oc, hop, hlen, rfl⟩ := fetchInstr_eq_ok_iff.mp hf
    have hop := decodeOpcode_eq_some_iff.mp hop
    rw [firstFault_of_whole hop hlen, firstOf_execChecks_of_raises hop hr]

theorem Completes.firstFault_eq_none {s t : State} {i : Instr} (hf : fetchInstr s = .ok i) (h : Completes s i t) :
    firstFault s = none := by
  obtain ⟨oc, hop, hlen, rfl⟩ := fetchInstr_eq_ok_iff.mp hf
  have hop := decodeOpcode_eq_some_iff.mp hop
  rw [firstFault_of_whole hop hlen, firstOf_execChecks_of_completes hop h]

/-- Settles O16: a step that raises does so with the first failing check's error, and one that completes fails no check. -/
theorem stepReportsFirstFailingCheck : Obligations.StepReportsFirstFailingCheck := by
  intro s e hs
  constructor
  · rintro ⟨t, hstep, ht⟩
    exact (eq_raise_of_step_faults hstep ht).1.firstFault_eq_some
  · intro hff
    obtain ⟨t, hstep⟩ := exists_step_of_running hs
    obtain ⟨-, ⟨i, hf, hc⟩ | ⟨e', hr, rfl⟩⟩ := step_eq_next_iff.mp hstep
    · cases (hc.firstFault_eq_none hf).symm.trans hff
    · cases hr.firstFault_eq_some.symm.trans hff
      exact ⟨_, hstep, rfl⟩

end Sys2Proof.Machine

/-! The memory list: writes one after another, and that the canonical form has one list for each content (20_memory.md). -/

namespace Sys2Proof.Machine

/-- Cells written one after another, each at an address that exists, keep the canonical form. -/
theorem foldl_write_wf {m : Memory} (writes : List Host.Cell) (hwf : m.wf = true)
    (h : ∀ w ∈ writes, w.1 < Config.memSize) : (writes.foldl (fun m w => Memory.write m w.1 w.2) m).wf = true := by
  induction writes generalizing m with
  | nil => exact hwf
  | cons w writes ih =>
    rw [List.forall_mem_cons] at h
    obtain ⟨hw, hrest⟩ := h
    exact ih (Memory.write_wf w.2 hwf hw) hrest

/-- Settles O43, by induction on the writes, the latest taken off first. -/
theorem readReturnsTheLatestWrite : Obligations.ReadReturnsTheLatestWrite := by
  intro writes a hlt
  induction writes using List.reverseRecOn with
  | nil => rfl
  | append_singleton writes w ih =>
    have hwrites : ∀ c ∈ writes, c.1 < 256 := fun c hc => hlt c (List.mem_append_left _ hc)
    have hwf := foldl_write_wf writes State.reset_mem_wf hwrites
    rw [List.foldl_append, List.foldl_cons, List.foldl_nil, Memory.read_write hwf, ih hwrites, List.reverse_append,
      List.reverse_singleton, List.singleton_append, List.find?_cons]
    obtain rfl | ha := eq_or_ne w.1 a
    · simp
    · simp [beq_false_of_ne ha, ha.symm]

theorem Memory.read_cons_same (a : Nat) (v : Byte) (m : Memory) : Memory.read ((a, v) :: m) a = v := if_pos rfl

theorem Memory.read_cons_ne {a k : Nat} (v : Byte) (m : Memory) (h : a ≠ k) :
    Memory.read ((k, v) :: m) a = Memory.read m a := if_neg h

/-- The canonical form of a list with a first entry, taken apart. -/
theorem Memory.wfFrom_cons_iff {lo a : Nat} {v : Byte} {m : Memory} :
    Memory.wfFrom lo ((a, v) :: m) = true ↔
      lo ≤ a ∧ a < Config.memSize ∧ v ≠ Memory.unlisted ∧ Memory.wfFrom (a + 1) m = true := by
  simp [Memory.wfFrom, and_assoc]

/-- The first address of a canonical list is the least one that does not read as unlisted. -/
theorem Memory.le_of_read_ne_unlisted {a b lo : Nat} {v : Byte} {m : Memory} (h : Memory.wfFrom lo ((a, v) :: m) = true)
    (hb : Memory.read ((a, v) :: m) b ≠ Memory.unlisted) : a ≤ b := by
  obtain ⟨-, ha, hv, hm⟩ := Memory.wfFrom_cons_iff.mp h
  by_contra hlt
  exact hb (Memory.read_below (Memory.wfFrom_cons_iff.mpr ⟨Nat.le_refl a, ha, hv, hm⟩) (Nat.lt_of_not_le hlt))

/-- A canonical list that reads as unlisted everywhere is empty. -/
theorem Memory.eq_nil_of_read {m : Memory} {lo : Nat} (h : Memory.wfFrom lo m = true)
    (hread : ∀ a, m.read a = Memory.unlisted) : m = [] := by
  cases m with
  | nil => rfl
  | cons c m =>
    obtain ⟨a, v⟩ := c
    obtain ⟨-, -, hv, -⟩ := Memory.wfFrom_cons_iff.mp h
    exact absurd ((Memory.read_cons_same a v m).symm.trans (hread a)) hv

/-- Canonical lists that read alike are equal: the first entries agree, and then the lists after them read alike. -/
theorem Memory.eq_of_read_eq {m m' : Memory} {lo lo' : Nat} (h : Memory.wfFrom lo m = true)
    (h' : Memory.wfFrom lo' m' = true) (hread : ∀ a, m.read a = m'.read a) : m = m' := by
  induction m generalizing m' lo lo' with
  | nil => exact (Memory.eq_nil_of_read h' fun a => (hread a).symm).symm
  | cons c m ih =>
    cases m' with
    | nil => exact Memory.eq_nil_of_read h hread
    | cons c' m' =>
      obtain ⟨a, v⟩ := c
      obtain ⟨b, w⟩ := c'
      obtain ⟨-, -, hv, hm⟩ := Memory.wfFrom_cons_iff.mp h
      obtain ⟨-, -, hw, hm'⟩ := Memory.wfFrom_cons_iff.mp h'
      have hab : a ≤ b := Memory.le_of_read_ne_unlisted h (by rwa [hread b, Memory.read_cons_same])
      have hba : b ≤ a := Memory.le_of_read_ne_unlisted h' (by rwa [← hread a, Memory.read_cons_same])
      obtain rfl := Nat.le_antisymm hab hba
      have hvw := hread a
      rw [Memory.read_cons_same, Memory.read_cons_same] at hvw
      have htail (x : Nat) : Memory.read m x = Memory.read m' x := by
        by_cases hx : x = a
        · rw [hx, Memory.read_below hm (Nat.lt_succ_self a), Memory.read_below hm' (Nat.lt_succ_self a)]
        · simpa only [Memory.read_cons_ne _ _ hx] using hread x
      rw [hvw, ih hm hm' htail]

/-- Settles O44: the canonical form leaves one list for each content. -/
theorem equalReadsMeanEqualMemory : Obligations.EqualReadsMeanEqualMemory := fun _ _ => Memory.eq_of_read_eq

/-- Bytes written upwards from `a` are read back there, and every other cell keeps its value. -/
theorem Memory.read_writeBytes {m : Memory} {a : Nat} (vs : List Byte) (b : Nat) (hwf : m.wf = true)
    (hlen : a + vs.length ≤ Config.memSize) :
    (m.writeBytes a vs).read b = if a ≤ b ∧ b < a + vs.length then vs.getD (b - a) 0#8 else m.read b := by
  induction vs generalizing m a with
  | nil =>
    rw [if_neg (by rw [List.length_nil]; omega)]
    rfl
  | cons v vs ih =>
    rw [List.length_cons] at hlen ⊢
    rw [Memory.writeBytes, ih (Memory.write_wf v hwf (by omega)) (by omega), Memory.read_write hwf]
    obtain hlt | rfl | hgt := Nat.lt_trichotomy b a
    · simp [Nat.not_le.mpr hlt, hlt.ne, Nat.not_le.mpr (Nat.lt_succ_of_lt hlt)]
    · simp
    · obtain ⟨k, rfl⟩ := Nat.exists_eq_add_of_lt hgt
      have hk : a + k + 1 - a = (a + k + 1 - (a + 1)) + 1 := by omega
      rw [hk, List.getD_cons_succ, if_neg (show a + k + 1 ≠ a by omega)]
      exact if_congr (by omega) rfl rfl

/-- An image that fits is read back with zeros after it. -/
theorem read_image (image : List Byte) (a : Nat) (h : image.length ≤ Config.memSize) :
    (Memory.writeBytes [] 0 image).read a = image.getD a 0x00#8 := by
  rw [Memory.read_writeBytes image a rfl (by rwa [Nat.zero_add])]
  simp only [Nat.zero_le, true_and, Nat.zero_add, Nat.sub_zero]
  split_ifs with ha
  · rfl
  · rw [List.getD_eq_default _ _ (Nat.le_of_not_lt ha)]
    rfl

end Sys2Proof.Machine

/-! The state after reset, and the host's inputs (70_reset_and_hazards.md). -/

namespace Sys2Proof.Machine

/-- Settles O26: the reset memory is canonical, and the status holds no record. -/
theorem resetMeetsInvariant : Obligations.ResetMeetsInvariant := ⟨State.reset_mem_wf, Nat.zero_le _, rfl⟩

/-- Settles O45, field by field; the seven registers but SP are checked one by one. -/
theorem resetState : Obligations.ResetState := ⟨rfl, by decide, rfl, fun _ => rfl, rfl, rfl⟩

/-- `reset(image)` with an image that fits is the reset state with the image in memory (R211). -/
theorem resetImage_of_fits {image : List Byte} (h : image.length ≤ 256) :
    resetImage image = { State.reset with mem := Memory.writeBytes [] 0 image } := if_neg (Nat.not_lt.mpr h)

/-- `reset(image)` with an image that does not fit is the reset state `Faulted` (R211). -/
theorem resetImage_of_too_long {image : List Byte} (h : 256 < image.length) :
    resetImage image = State.reset.setStatus (.faulted ⟨.outOfBounds .load 256, 0⟩) := if_pos h

/-- Settles O46: the image fits and is placed, or does not and nothing is. -/
theorem resetPlacesTheImageOrNothing : Obligations.ResetPlacesTheImageOrNothing := by
  intro image s
  obtain h | h := Nat.lt_or_ge 256 image.length
  · rw [hostInput, resetImage_of_too_long h]
    exact ⟨rfl, rfl, rfl, fun hle => absurd h (Nat.not_lt.mpr hle), fun _ => ⟨rfl, fun _ => rfl⟩⟩
  · rw [hostInput, resetImage_of_fits h]
    exact ⟨rfl, rfl, rfl, fun _ => ⟨rfl, fun a => read_image image a h⟩, fun hlt => absurd hlt (Nat.not_lt.mpr h)⟩

/-- `reset(image)` meets the invariant, whether or not the image fits. -/
theorem resetImage_inv (image : List Byte) : (resetImage image).Inv := by
  have hwf : (resetImage image).mem.wf = true := load_mem_wf State.reset_mem_wf
  obtain h | h := Nat.lt_or_ge 256 image.length
  · rw [resetImage_of_too_long h] at hwf ⊢
    exact ⟨hwf, Nat.zero_le _, rfl⟩
  · rw [resetImage_of_fits h] at hwf ⊢
    exact ⟨hwf, Nat.zero_le _, rfl⟩

theorem start_of_halted {s : State} (h : s.status = .halted) : start s = s.setStatus .running := by simp [start, h]

theorem start_of_not_halted {s : State} (h : s.status ≠ .halted) : start s = s := by
  unfold start
  split
  · contradiction
  · rfl
  · rfl

/-- `start` keeps the invariant: a state it makes `Running` has no fault record. -/
theorem State.Inv.start {s : State} (h : s.Inv) : (start s).Inv := by
  by_cases hs : s.status = .halted
  · obtain ⟨hwf, hpc, -⟩ := h
    rw [start_of_halted hs]
    exact ⟨hwf, hpc, rfl⟩
  · rwa [start_of_not_halted hs]

/-- Settles O27: both host inputs, one lemma each. -/
theorem hostInputsKeepInvariant : Obligations.HostInputsKeepInvariant :=
  ⟨fun image _ => resetImage_inv image, fun _ => State.Inv.start⟩

/-- Settles O47: the pc is 0 and address 0 reads as 0, which is no opcode. -/
theorem emptyImageRaisesAtZero : Obligations.EmptyImageRaisesAtZero :=
  step_at_unlisted (s := start (resetImage [])) rfl (Nat.zero_le _) rfl

end Sys2Proof.Machine

/-! Events and runs (40_engine.md R80 and R81, 70_reset_and_hazards.md R227). -/

namespace Sys2Proof.Machine

/-- The step event is the step, where there is one. -/
theorem event_step_eq_some_iff {s t : State} : event .step s = some t ↔ step s = .next t := by
  cases h : step s <;> simp [event, h]

theorem event_step_eq_none {s : State} (h : s.status ≠ .running) : event .step s = none := by
  cases ht : event .step s with
  | none => rfl
  | some t => exact absurd (step_eq_next_iff.mp (event_step_eq_some_iff.mp ht)).1 h

/-- The fetched instruction is HLT exactly if HLT's byte stands at the pc. -/
theorem eq_hlt_iff_of_fetch {s : State} {i : Instr} (hf : fetchInstr s = .ok i) : i = .hlt ↔ s.mem.read s.pc = 0x01#8 := by
  obtain ⟨oc, hop, -, rfl⟩ := fetchInstr_eq_ok_iff.mp hf
  rw [decodeOpcode_eq_some_iff.mp hop]
  cases oc <;> simp [instrAtPc, Opcode.instr, Opcode.byte]

/-- A running machine halts at HLT and stays `Running` after any other instruction that completes. -/
theorem Completes.status_of_running {s t : State} {i : Instr} (hs : s.status = .running) (h : Completes s i t) :
    (i = .hlt ∧ t.status = .halted) ∨ (i ≠ .hlt ∧ t.status = .running) := by
  cases h with
  | hlt => exact .inl ⟨rfl, rfl⟩
  | ldi | prn | mul | add | push | pop | call | ret => exact .inr ⟨Instr.noConfusion, hs⟩

/-- R80's rows of the step. -/
theorem status_after_step {s t : State} (h : step s = .next t) :
    (s.pc ≤ 255 ∧ s.mem.read s.pc = 0x01#8 ∧ t.status = .halted) ∨
    (s.mem.read s.pc ≠ 0x01#8 ∧ firstFault s = none ∧ t.status = .running) ∨
    (∃ e, firstFault s = some e ∧ t.status = .faulted ⟨e, s.pc⟩) := by
  obtain ⟨hs, ⟨i, hf, hc⟩ | ⟨e, hr, rfl⟩⟩ := step_eq_next_iff.mp h
  · obtain ⟨hi, ht⟩ | ⟨hi, ht⟩ := hc.status_of_running hs
    · have hpc : s.pc + (encode i).length ≤ 256 := pc_add_length_of_fetch hf
      have hop := (eq_hlt_iff_of_fetch hf).mp hi
      rw [hi] at hpc
      exact .inl ⟨Nat.le_of_succ_le_succ hpc, hop, ht⟩
    · exact .inr (.inl ⟨mt (eq_hlt_iff_of_fetch hf).mpr hi, hc.firstFault_eq_none hf, ht⟩)
  · exact .inr (.inr ⟨e, hr.firstFault_eq_some, rfl⟩)

/-- Settles O23: the rows of reset, of `start` and of the step. -/
theorem statusFollowsTheTransitionTable : Obligations.StatusFollowsTheTransitionTable := by
  refine ⟨?_, ?_, fun s t h => ?_⟩
  · rintro image s _ ⟨⟩
    exact ⟨fun h => congrArg State.status (resetImage_of_fits h),
      fun h => congrArg State.status (resetImage_of_too_long h)⟩
  · rintro s _ ⟨⟩
    exact ⟨start_of_halted, start_of_not_halted⟩
  · have hstep := event_step_eq_some_iff.mp h
    exact ⟨(step_eq_next_iff.mp hstep).1, status_after_step hstep⟩

/-- Settles O48: what a step sends stands after what the host could read before, and only a running machine steps. -/
theorem hostReadsStatusAndOutAtAnyTime : Obligations.HostReadsStatusAndOutAtAnyTime := by
  refine ⟨fun _ => ⟨rfl, rfl⟩, fun s t h => ?_, fun _ => event_step_eq_none⟩
  obtain ⟨sent, hsent, -⟩ := step_with_out (event_step_eq_some_iff.mp h) []
  exact ⟨sent, hsent⟩

/-- A run of a state that is not `Running` does nothing. -/
theorem run_of_not_running {s : State} (n : Nat) (h : s.status ≠ .running) : run n s = s := by
  cases n with
  | zero => rfl
  | succ n => simp only [run, event_step_eq_none h]

/-- A run with more fuel is a run of the state that the first part of the fuel leads to. -/
theorem run_add (n m : Nat) (s : State) : run (n + m) s = run m (run n s) := by
  induction n generalizing s with
  | zero => rw [Nat.zero_add, run]
  | succ n ih =>
    rw [Nat.succ_add, run, run]
    cases h : event .step s with
    | some t => exact ih t
    | none =>
      cases m with
      | zero => rfl
      | succ m => simp only [run, h]

/-- Settles O49: the rest of the fuel is spent on a state that has no step. -/
theorem endedRunsStayEnded : Obligations.EndedRunsStayEnded := by
  refine ⟨fun n m s h => (run_add n m s).trans (run_of_not_running m h), fun s => ?_⟩
  cases hs : s.status <;> simp [State.observe, hs]

end Sys2Proof.Machine

/-! Assembly and disassembly (30_encoding.md R70 and R72), and facts about the opcode bytes (R63 to R66). -/

namespace Sys2Proof.Machine

/-- With a whole instruction first, disassembly shows it and goes on after it. -/
theorem disassembleFuel_of_decode {bytes rest : List Byte} {i : Instr} (fuel : Nat) (h : decode bytes = .ok (i, rest)) :
    disassembleFuel (fuel + 1) bytes = .instr i :: disassembleFuel fuel rest := by
  cases bytes with
  | nil => cases h
  | cons b bytes => simp only [disassembleFuel, h]

/-- With no whole instruction first, disassembly shows one raw byte. -/
theorem disassembleFuel_of_decode_error {b : Byte} {bytes : List Byte} {rj : Reject} (fuel : Nat)
    (h : decode (b :: bytes) = .error rj) :
    disassembleFuel (fuel + 1) (b :: bytes) = .byte b :: disassembleFuel fuel bytes := by
  simp only [disassembleFuel, h]

theorem disassembleFuel_nil (fuel : Nat) : disassembleFuel fuel [] = [] := by
  cases fuel <;> rfl

theorem length_encode_pos (i : Instr) : 0 < (encode i).length := by
  cases i <;> exact Nat.succ_pos _

/-- With fuel for every byte, the encodings of a list of instructions are shown as those instructions. -/
theorem disassembleFuel_flatMap_encode (is : List Instr) (fuel : Nat) (h : (is.flatMap encode).length ≤ fuel) :
    disassembleFuel fuel (is.flatMap encode) = is.map .instr := by
  induction is generalizing fuel with
  | nil => exact disassembleFuel_nil fuel
  | cons i is ih =>
    rw [List.flatMap_cons, List.length_append] at h
    have hpos := length_encode_pos i
    obtain ⟨fuel, rfl⟩ : ∃ n, fuel = n + 1 := ⟨fuel - 1, by omega⟩
    rw [List.flatMap_cons, disassembleFuel_of_decode fuel (decode_encode_append i _), ih fuel (by omega), List.map_cons]

/-- Settles O31: the fuel is the number of bytes. -/
theorem disassemblyUndoesEncoding : Obligations.DisassemblyUndoesEncoding := fun is =>
  disassembleFuel_flatMap_encode is _ (Nat.le_refl _)

/-- With fuel for every byte, the items shown stand for exactly the bytes. -/
theorem flatMap_rawBytes_disassembleFuel (fuel : Nat) (bytes : List Byte) (h : bytes.length ≤ fuel) :
    (disassembleFuel fuel bytes).flatMap AsmItem.rawBytes = bytes := by
  induction fuel generalizing bytes with
  | zero =>
    rw [List.length_eq_zero_iff.mp (Nat.le_zero.mp h)]
    rfl
  | succ fuel ih =>
    cases bytes with
    | nil => rfl
    | cons b bytes =>
      cases hdec : decode (b :: bytes) with
      | error rj =>
        rw [disassembleFuel_of_decode_error fuel hdec, List.flatMap_cons, ih bytes (Nat.le_of_succ_le_succ h)]
        rfl
      | ok p =>
        obtain ⟨i, rest⟩ := p
        have hbytes := eq_encode_append_of_decode hdec
        have hpos := length_encode_pos i
        have hrest : rest.length ≤ fuel := by
          rw [hbytes, List.length_append] at h
          omega
        rw [disassembleFuel_of_decode fuel hdec, List.flatMap_cons, ih rest hrest, hbytes]
        rfl

/-- Settles O32: the fuel is the number of bytes. -/
theorem disassemblyKeepsEveryByte : Obligations.DisassemblyKeepsEveryByte := fun bytes =>
  flatMap_rawBytes_disassembleFuel _ bytes (Nat.le_refl _)

/-- Settles O33: the one line is refused exactly if its instruction is ill-formed. -/
theorem assemblerRefusesBadRegisters : Obligations.AssemblerRefusesBadRegisters := by
  intro i
  cases hw : i.wellFormed <;> simp [assemble, assembleItems, assembleItem, hw]

/-- The byte values that select an opcode are the nine listed ones. -/
theorem legal_byte_values_perm :
    ((List.range 256).filter fun n => (decodeOpcode (BitVec.ofNat 8 n)).isSome).Perm
      (listedOpcodes.map BitVec.toNat) := by
  refine (List.perm_ext_iff_of_nodup (List.nodup_range.filter _) (by decide)).mpr fun n => ?_
  simp only [List.mem_filter, List.mem_range, isSome_decodeOpcode_iff, List.mem_map]
  constructor
  · rintro ⟨hn, h⟩
    exact ⟨_, h, Nat.mod_eq_of_lt hn⟩
  · rintro ⟨op, h, rfl⟩
    exact ⟨op.isLt, by rwa [BitVec.ofNat_toNat, BitVec.setWidth_eq]⟩

/-- All byte values but the nine listed ones are illegal (R66). -/
theorem length_illegal_byte_values :
    ((List.range 256).filter fun n => (decodeOpcode (BitVec.ofNat 8 n)).isNone).length = 247 := by
  have hall := List.length_eq_length_filter_add (l := List.range 256) fun n => (decodeOpcode (BitVec.ofNat 8 n)).isSome
  simp only [Option.not_isSome, List.length_range, legal_byte_values_perm.length_eq] at hall
  exact Nat.add_left_cancel hall.symm

/-- Settles O34: a listed byte is the byte of its opcode, so each fact about it is one of nine. -/
theorem opcodeByteFacts : Obligations.OpcodeByteFacts := by
  refine ⟨fun b oc h => ?_, length_illegal_byte_values, rfl⟩
  obtain rfl := decodeOpcode_eq_some_iff.mp h
  cases oc <;> decide

/-- Settles O35, by running the decoder on each word. -/
theorem writtenOutWordsDecode : Obligations.WrittenOutWordsDecode := by
  unfold Obligations.WrittenOutWordsDecode
  decide

/-- Settles O42: the two named results are reduced mod 256, and any other name matches neither. -/
theorem aluKnowsAddAndMulOnly : Obligations.AluKnowsAddAndMulOnly := by
  refine fun op va vb => ⟨?_, ?_, fun hadd hmul => ?_⟩
  · rintro rfl
    exact ⟨_, aluResult_add va vb, BitVec.toNat_ofNat ..⟩
  · rintro rfl
    exact ⟨_, aluResult_mul va vb, BitVec.toNat_ofNat ..⟩
  · simp [aluResult, hadd, hmul]

end Sys2Proof.Machine
